-- ==== Sys2Proof/Word.lean ====
section
/-! DEFINITION. The widths of the TAQ block and of the HPL32 harness (00_scope.md R7, R10; 30_encoding.md R70, R78). -/

namespace Sys2Proof

/-- A register, a data word or an HPL32 instruction word: 32 bits (R7 REG_WIDTH, R78). -/
abbrev Word := BitVec 32

/-- A raw code of one conversion, 0 to 4095 (R6 CODE_BITS). -/
abbrev RawCode := BitVec 12

/-- A byte offset from TAQ_BASE inside the 4096-byte window (R50, R70 field OFF). -/
abbrev Offset := BitVec 12

/-- A bus-access descriptor (R70 DESC). -/
abbrev Desc := BitVec 16

/-- The 22-bit immediate of an HPL32 word (R78 IMM). -/
abbrev Imm := BitVec 22

/-- The number of an HPL32 register, r0 to r7 (R180). -/
abbrev RegIdx := Fin 8

/-- The number of a conversion sequence, 0 to 2 (R6 NSEQ). -/
abbrev SeqIdx := Fin 3

/-- The number of a timer, 0 or 1 (R6 NTIMER). -/
abbrev TmrIdx := Fin 2

end Sys2Proof
end

