-- ==== Sys2Proof/Syntax.lean ====
section
/-! DEFINITION. Everything an agent can ask of the machine: the 45 rows of spec/opcode_table.json as `Instr`, the
bus access of any host as `BusReq`, and one step of one agent as `Event` (00_scope.md R9; 30_encoding.md R70 to R81). -/

namespace Sys2Proof

/-- The sixteen registers of the window (10_state.md R35 to R46, summary R48). -/
inductive Reg where
  | seqTrig | seqStat | seqClr | seqRes0 | seqRes1 | seqRes2
  | tmrCtl | tmrStat | tmrClr | tmrLoad0 | tmrLoad1 | tmrVal0 | tmrVal1
  | tcCode | tcCel | tcFah
  deriving DecidableEq, Repr, Inhabited

/-- The kind a bus error carries (60_exceptions.md R210). -/
inductive BusErrorKind where
  /-- An instruction fetch from the window. -/
  | fetch
  /-- A byte, halfword or reserved size. -/
  | size
  /-- A word access whose two low address bits are not zero. -/
  | align
  /-- A word access to a reserved offset. -/
  | unmapped
  deriving DecidableEq, Repr, Inhabited

/-- One constructor per row of spec/opcode_table.json. A block write carries its DATA word, which follows the
descriptor as the access's operand (R70, R71); the descriptor itself has no other operand. -/
inductive Instr where
  -- the sequencer unit (40_sequencer.md)
  | rdSeqTrig
  | wrSeqTrig (data : Word)
  | rdSeqStat
  | wrSeqStat (data : Word)
  | rdSeqClr
  | wrSeqClr (data : Word)
  | rdSeqRes0
  | wrSeqRes0 (data : Word)
  | rdSeqRes1
  | wrSeqRes1 (data : Word)
  | rdSeqRes2
  | wrSeqRes2 (data : Word)
  -- the timer unit (41_timer.md)
  | rdTmrCtl
  | wrTmrCtl (data : Word)
  | rdTmrStat
  | wrTmrStat (data : Word)
  | rdTmrClr
  | wrTmrClr (data : Word)
  | rdTmrLoad0
  | wrTmrLoad0 (data : Word)
  | rdTmrLoad1
  | wrTmrLoad1 (data : Word)
  | rdTmrVal0
  | wrTmrVal0 (data : Word)
  | rdTmrVal1
  | wrTmrVal1 (data : Word)
  -- the temperature converter unit (42_tempconv.md)
  | rdTcCode
  | wrTcCode (data : Word)
  | rdTcCel
  | wrTcCel (data : Word)
  | rdTcFah
  | wrTcFah (data : Word)
  -- the HPL32 host harness (43_host_harness.md)
  | halt
  | rd (rd : RegIdx) (off : Offset)
  | wr (off : Offset) (rs : RegIdx)
  | li (rd : RegIdx) (imm : Imm)
  | andi (rd rs : RegIdx) (imm : Imm)
  | addi (rd rs : RegIdx) (imm : Imm)
  | bz (rs : RegIdx) (target : Imm)
  | bnz (rs : RegIdx) (target : Imm)
  | j (target : Imm)
  | ei
  | di
  | reti
  /-- A word with a reserved OP or a non-zero MBZ field (R81, R195). -/
  | illegal (word : Word)
  deriving DecidableEq, Repr, Inhabited

/-- What is decoded: a bus access (DESC, DATA) of R70, or one HPL32 word of R78. -/
inductive Code where
  | access (desc : Desc) (data : Word)
  | word (w : Word)
  deriving DecidableEq, Repr, Inhabited

/-- Why the decoder gives no instruction (R72). -/
inductive Reject where
  /-- W = 1 with X = 1: not a bus access, nothing reaches the block (R72 step 1, R74). -/
  | notBusAccess
  /-- The block answers with a bus error of this kind (R72 steps 2 to 5). -/
  | busError (kind : BusErrorKind)
  deriving DecidableEq, Repr, Inhabited

/-- One access of a host to the block, as the pair of R70 or at its bus address (R12 MemRead and MemWrite, R50). -/
inductive BusReq where
  | desc (desc : Desc) (data : Word)
  | addr (write fetch : Bool) (size : BitVec 2) (addr : Nat) (data : Word)
  deriving DecidableEq, Repr, Inhabited

/-- One step of one agent (R9, R75, R182). -/
inductive Event where
  /-- The platform resets the block (R240). -/
  | reset
  /-- The Converter completes sequence n's conversion: CONV_DONE(n) (R112). -/
  | convDone (n : SeqIdx)
  /-- The Clock gives timer t one tick: TICK(t) (R140). -/
  | tick (t : TmrIdx)
  /-- The Host, running HPL32, executes the word at its pc (R182 (b)). -/
  | hostExec
  /-- The Host takes an interrupt: HPL32's entry (R182 (a), R196), or another host's own (R219, HOST_TRAP). -/
  | hostIrq
  /-- A host other than HPL32 returns from its interrupt handler (R220, HOST_TRAP). HPL32 returns by RETI. -/
  | hostReturn
  /-- A host other than HPL32 executes its own barrier (R62). HPL32 has none. -/
  | hostBarrier
  /-- A host other than HPL32 makes one access (R9, R70). -/
  | access (r : BusReq)
  /-- The host's bus delivers the oldest write it has posted (R62). -/
  | deliver
  deriving DecidableEq, Repr, Inhabited

end Sys2Proof
end

