-- ==== Sys2Proof/WellFormed.lean ====
section
/-! DEFINITION. Which terms of `Instr` stand for an encoding. Every operand's range is in its type; the one check left
is that `illegal w` holds a word that 30_encoding.md R81 calls illegal. -/

namespace Sys2Proof

/-- The must-be-zero bits of an HPL32 word with this OP (the MBZ columns of R80). -/
def mbzMask (op : BitVec 4) : Word :=
  match op.toNat with
  | 0x0 => 0x0FFFFFFF#32
  | 0x1 => 0x01FFF000#32
  | 0x2 => 0x0E3FF000#32
  | 0x3 => 0x01C00000#32
  | 0x4 => 0x00000000#32
  | 0x5 => 0x00000000#32
  | 0x6 => 0x0E000000#32
  | 0x7 => 0x0E000000#32
  | 0x8 => 0x0FC00000#32
  | 0x9 => 0x0FFFFFFF#32
  | 0xA => 0x0FFFFFFF#32
  | 0xB => 0x0FFFFFFF#32
  | _ => 0x00000000#32

/-- R81: OP is 0xC to 0xF, or an MBZ field is non-zero. -/
def isIllegalWord (w : Word) : Bool :=
  decide (0xC#4 ≤ w.extractLsb' 28 4) || decide (w &&& mbzMask (w.extractLsb' 28 4) ≠ 0#32)

/-- The terms that some descriptor or word encodes. -/
def Instr.wellFormed : Instr → Bool
  | .illegal w => isIllegalWord w
  | _ => true

end Sys2Proof
end

