-- ==== Sys2Proof/Decode.lean ====
section
/-! DEFINITION. The decoder of 30_encoding.md (R70 to R73 for the descriptors, R78 to R81 for HPL32 words) and, after
it, the encoder. Both are total; what the decoder rejects it rejects by name. -/

namespace Sys2Proof

/-! ## The register map -/

/-- The offset of each register (10_state.md R48). -/
def Reg.offset : Reg → Offset
  | .seqTrig => 0x000#12
  | .seqStat => 0x004#12
  | .seqClr => 0x008#12
  | .seqRes0 => 0x010#12
  | .seqRes1 => 0x014#12
  | .seqRes2 => 0x018#12
  | .tmrCtl => 0x020#12
  | .tmrStat => 0x024#12
  | .tmrClr => 0x028#12
  | .tmrLoad0 => 0x030#12
  | .tmrLoad1 => 0x034#12
  | .tmrVal0 => 0x038#12
  | .tmrVal1 => 0x03C#12
  | .tcCode => 0x040#12
  | .tcCel => 0x044#12
  | .tcFah => 0x048#12

/-- Every register of the map, in the order of R48. -/
def allRegs : List Reg :=
  [.seqTrig, .seqStat, .seqClr, .seqRes0, .seqRes1, .seqRes2,
   .tmrCtl, .tmrStat, .tmrClr, .tmrLoad0, .tmrLoad1, .tmrVal0, .tmrVal1,
   .tcCode, .tcCel, .tcFah]

/-- The register at an offset; none at a reserved offset (R47). -/
def regAt (off : Offset) : Option Reg :=
  allRegs.find? fun r => r.offset == off

/-- Steps 4 and 5 of R72, for a word data access: ALIGN is tested before UNMAPPED. -/
def checkOffset (off : Offset) : Except BusErrorKind Reg :=
  if off.extractLsb' 0 2 ≠ 0#2 then .error .align
  else
    match regAt off with
    | some r => .ok r
    | none => .error .unmapped

/-! ## The descriptor's fields (R70) -/

def descWrite (d : Desc) : Bool := d.getLsbD 15
def descFetch (d : Desc) : Bool := d.getLsbD 14
def descSize (d : Desc) : BitVec 2 := d.extractLsb' 12 2
def descOffset (d : Desc) : Offset := d.extractLsb' 0 12

/-- A descriptor from its four fields (R70). -/
def descOf (write fetch : Bool) (size : BitVec 2) (off : Offset) : Desc :=
  BitVec.ofBool write ++ (BitVec.ofBool fetch ++ (size ++ off))

/-- The read operation of a register (R73). -/
def readInstr : Reg → Instr
  | .seqTrig => .rdSeqTrig
  | .seqStat => .rdSeqStat
  | .seqClr => .rdSeqClr
  | .seqRes0 => .rdSeqRes0
  | .seqRes1 => .rdSeqRes1
  | .seqRes2 => .rdSeqRes2
  | .tmrCtl => .rdTmrCtl
  | .tmrStat => .rdTmrStat
  | .tmrClr => .rdTmrClr
  | .tmrLoad0 => .rdTmrLoad0
  | .tmrLoad1 => .rdTmrLoad1
  | .tmrVal0 => .rdTmrVal0
  | .tmrVal1 => .rdTmrVal1
  | .tcCode => .rdTcCode
  | .tcCel => .rdTcCel
  | .tcFah => .rdTcFah

/-- The write operation of a register with its DATA word (R73). -/
def writeInstr (data : Word) : Reg → Instr
  | .seqTrig => .wrSeqTrig data
  | .seqStat => .wrSeqStat data
  | .seqClr => .wrSeqClr data
  | .seqRes0 => .wrSeqRes0 data
  | .seqRes1 => .wrSeqRes1 data
  | .seqRes2 => .wrSeqRes2 data
  | .tmrCtl => .wrTmrCtl data
  | .tmrStat => .wrTmrStat data
  | .tmrClr => .wrTmrClr data
  | .tmrLoad0 => .wrTmrLoad0 data
  | .tmrLoad1 => .wrTmrLoad1 data
  | .tmrVal0 => .wrTmrVal0 data
  | .tmrVal1 => .wrTmrVal1 data
  | .tcCode => .wrTcCode data
  | .tcCel => .wrTcCel data
  | .tcFah => .wrTcFah data

/-- R72: the tests in order, and the first that applies decides. -/
def decodeAccess (d : Desc) (data : Word) : Except Reject Instr :=
  if descWrite d && descFetch d then .error .notBusAccess
  else if descFetch d then .error (.busError .fetch)
  else if descSize d ≠ 0b10#2 then .error (.busError .size)
  else
    match checkOffset (descOffset d) with
    | .error k => .error (.busError k)
    | .ok r => .ok (if descWrite d then writeInstr data r else readInstr r)

/-! ## The HPL32 word's fields (R78) -/

def hplOp (w : Word) : BitVec 4 := w.extractLsb' 28 4
def hplRd (w : Word) : BitVec 3 := w.extractLsb' 25 3
def hplRs (w : Word) : BitVec 3 := w.extractLsb' 22 3
def hplImm (w : Word) : Imm := w.extractLsb' 0 22

/-- `OP << 28 | RD << 25 | RS << 22 | IMM` (R80). -/
def hplWord (op : BitVec 4) (rd rs : BitVec 3) (imm : Imm) : Word :=
  op ++ (rd ++ (rs ++ imm))

/-- A register number from its field, and back. -/
def regOfField (f : BitVec 3) : RegIdx := ⟨f.toNat, f.isLt⟩
def fieldOfReg (r : RegIdx) : BitVec 3 := BitVec.ofNat 3 r.val

/-- The block offset of RD and WR: IMM[11:0], of use only where IMM[21:12] is zero (R79). -/
def immOffset (imm : Imm) : Offset := imm.extractLsb' 0 12
def immHigh (imm : Imm) : BitVec 10 := imm.extractLsb' 12 10
def immOfOffset (off : Offset) : Imm := 0#10 ++ off

/-- R80 and R81: the opcode map, with a non-zero MBZ field or a reserved OP illegal. -/
def decodeHpl (w : Word) : Instr :=
  let rd := hplRd w
  let rs := hplRs w
  let imm := hplImm w
  match (hplOp w).toNat with
  | 0x0 => if rd = 0#3 ∧ rs = 0#3 ∧ imm = 0#22 then .halt else .illegal w
  | 0x1 => if rs = 0#3 ∧ immHigh imm = 0#10 then .rd (regOfField rd) (immOffset imm) else .illegal w
  | 0x2 => if rd = 0#3 ∧ immHigh imm = 0#10 then .wr (immOffset imm) (regOfField rs) else .illegal w
  | 0x3 => if rs = 0#3 then .li (regOfField rd) imm else .illegal w
  | 0x4 => .andi (regOfField rd) (regOfField rs) imm
  | 0x5 => .addi (regOfField rd) (regOfField rs) imm
  | 0x6 => if rd = 0#3 then .bz (regOfField rs) imm else .illegal w
  | 0x7 => if rd = 0#3 then .bnz (regOfField rs) imm else .illegal w
  | 0x8 => if rd = 0#3 ∧ rs = 0#3 then .j imm else .illegal w
  | 0x9 => if rd = 0#3 ∧ rs = 0#3 ∧ imm = 0#22 then .ei else .illegal w
  | 0xA => if rd = 0#3 ∧ rs = 0#3 ∧ imm = 0#22 then .di else .illegal w
  | 0xB => if rd = 0#3 ∧ rs = 0#3 ∧ imm = 0#22 then .reti else .illegal w
  | _ => .illegal w

/-- The whole decoder: an access by R72, a word by R80. -/
def decode : Code → Except Reject Instr
  | .access d data => decodeAccess d data
  | .word w => .ok (decodeHpl w)

/-- The instruction read from the bits of one row of spec/opcode_table.json. A 32-bit row is an HPL32 word; any other
is a descriptor in bits 15 to 0 with its DATA word in bits 47 to 16. -/
def decodeTableWord (nbits w : Nat) : Option Instr :=
  if nbits = 32 then (decode (.word (BitVec.ofNat 32 w))).toOption
  else (decode (.access (BitVec.ofNat 16 w) (BitVec.ofNat 32 (w / 65536)))).toOption

/-! ## The encoder (R70, R73, R80) -/

/-- A read access: W = 0, X = 0, a word (R73: DESC = 0x2000 | OFF). The host supplies no DATA; it is written as 0. -/
def readCode (r : Reg) : Code := .access (descOf false false 0b10#2 r.offset) 0#32

/-- A write access: W = 1, X = 0, a word (R73: DESC = 0xA000 | OFF). -/
def writeCode (r : Reg) (data : Word) : Code := .access (descOf true false 0b10#2 r.offset) data

/-- The descriptor and data word, or the HPL32 word, of an instruction. -/
def encode : Instr → Code
  | .rdSeqTrig => readCode .seqTrig
  | .wrSeqTrig data => writeCode .seqTrig data
  | .rdSeqStat => readCode .seqStat
  | .wrSeqStat data => writeCode .seqStat data
  | .rdSeqClr => readCode .seqClr
  | .wrSeqClr data => writeCode .seqClr data
  | .rdSeqRes0 => readCode .seqRes0
  | .wrSeqRes0 data => writeCode .seqRes0 data
  | .rdSeqRes1 => readCode .seqRes1
  | .wrSeqRes1 data => writeCode .seqRes1 data
  | .rdSeqRes2 => readCode .seqRes2
  | .wrSeqRes2 data => writeCode .seqRes2 data
  | .rdTmrCtl => readCode .tmrCtl
  | .wrTmrCtl data => writeCode .tmrCtl data
  | .rdTmrStat => readCode .tmrStat
  | .wrTmrStat data => writeCode .tmrStat data
  | .rdTmrClr => readCode .tmrClr
  | .wrTmrClr data => writeCode .tmrClr data
  | .rdTmrLoad0 => readCode .tmrLoad0
  | .wrTmrLoad0 data => writeCode .tmrLoad0 data
  | .rdTmrLoad1 => readCode .tmrLoad1
  | .wrTmrLoad1 data => writeCode .tmrLoad1 data
  | .rdTmrVal0 => readCode .tmrVal0
  | .wrTmrVal0 data => writeCode .tmrVal0 data
  | .rdTmrVal1 => readCode .tmrVal1
  | .wrTmrVal1 data => writeCode .tmrVal1 data
  | .rdTcCode => readCode .tcCode
  | .wrTcCode data => writeCode .tcCode data
  | .rdTcCel => readCode .tcCel
  | .wrTcCel data => writeCode .tcCel data
  | .rdTcFah => readCode .tcFah
  | .wrTcFah data => writeCode .tcFah data
  | .halt => .word (hplWord 0x0#4 0#3 0#3 0#22)
  | .rd rd off => .word (hplWord 0x1#4 (fieldOfReg rd) 0#3 (immOfOffset off))
  | .wr off rs => .word (hplWord 0x2#4 0#3 (fieldOfReg rs) (immOfOffset off))
  | .li rd imm => .word (hplWord 0x3#4 (fieldOfReg rd) 0#3 imm)
  | .andi rd rs imm => .word (hplWord 0x4#4 (fieldOfReg rd) (fieldOfReg rs) imm)
  | .addi rd rs imm => .word (hplWord 0x5#4 (fieldOfReg rd) (fieldOfReg rs) imm)
  | .bz rs target => .word (hplWord 0x6#4 0#3 (fieldOfReg rs) target)
  | .bnz rs target => .word (hplWord 0x7#4 0#3 (fieldOfReg rs) target)
  | .j target => .word (hplWord 0x8#4 0#3 0#3 target)
  | .ei => .word (hplWord 0x9#4 0#3 0#3 0#22)
  | .di => .word (hplWord 0xA#4 0#3 0#3 0#22)
  | .reti => .word (hplWord 0xB#4 0#3 0#3 0#22)
  | .illegal w => .word w

end Sys2Proof
end

