-- ==== Sys2Proof/Config.lean ====
section
/-! DEFINITION. What the spec leaves open (00_scope.md R8) and the free values: constants without a body, so that no
proof can see what they are. FAIR_CONV and FAIR_TICK are properties of whole runs and stand in Safety.lean;
HOST_POSTED_WRITES, the caching of R65 and which host drives the block are facts about the host and stand in State as
`HostBus` and `Platform`. -/

namespace Sys2Proof

/-- HOST_TRAP (R8): the entry, priority and return mechanism of a host with contexts σ, whose interrupt inputs are named
by ι. A model takes it as an argument: 43_host_harness.md gives the instance HPL32 (60_exceptions.md R219). -/
structure HostTrap (ι σ : Type) where
  /-- Which of the asserted inputs the host takes now, if any: its enable, mask and priority (R217, R218, R221). -/
  takes : σ → List ι → Option ι
  /-- Entry: what is saved and where control goes (R219). -/
  enter : σ → ι → σ
  /-- Return from a handler (R220). -/
  leave : σ → σ
  /-- What the host does with a bus error, by its address and kind (R210). -/
  busError : σ → Nat → BusErrorKind → σ
  deriving Inhabited

end Sys2Proof

namespace Sys2Proof.Config

/-- TAQ_BASE divided by 4096 (R8, R50): the base is any multiple of 4096. -/
opaque taqPage : Nat

/-- TAQ_BASE, a multiple of 4096 (R50). -/
def taqBase : Nat := 4096 * taqPage

/-- F_CLK, the tick frequency in Hz (R8). No rule of the machine depends on it; R149's reload values do. -/
opaque fClk : Nat

/-- SRC(n), the analog input sequence n converts (R8, R113). -/
opaque src : SeqIdx → Nat

/-- AIN, the analog oracle: the code of the k-th draw from an input. No relation between draws is fixed (R113). -/
opaque ain : Nat → Nat → RawCode

/-- IRQ_LINE(t), the host interrupt-controller input that IRQ[t] drives (R8, R217). -/
opaque irqLine : TmrIdx → Nat

/-- HOST_TRAP of a host other than HPL32 (R8, R219): its context, of which the spec gives nothing, is a number that
codes it, and its controller inputs are numbers too (R217). HPL32's own instance is `hpl32Trap`. -/
opaque hostTrap : HostTrap Nat Nat

/-- The value RES[n] takes at the k-th draw of a RESET event (R240: a draw in 0 to 4095). -/
opaque resetRes : Nat → SeqIdx → RawCode

/-- The value LOAD[t] takes at the k-th draw of a RESET event (R240: a draw in 0 to 2^32 - 1). -/
opaque resetLoad : Nat → TmrIdx → Word

/-- The value VAL[t] takes at the k-th draw of a RESET event (R240: a draw in 0 to 2^32 - 1). -/
opaque resetVal : Nat → TmrIdx → Word

/-- Which agent takes the next step where the state's schedule names none: the spec gives no rule for the choice
(R9: any enabled agent may take the next step; R61, R114, R182). -/
opaque nextEvent : Nat → Event

end Sys2Proof.Config
end

