-- ==== Sys2Proof/Machine/State.lean ====
section
/-! DEFINITION. The state of the machine: the TAQ block (10_state.md R20 to R33), the HPL32 harness
(43_host_harness.md R180, R181), the bus response the host receives (60_exceptions.md R210, R212), the host's bus
(20_memory.md R62, R65) and the model's own fields (the other host's context, the schedule, the draw counter). Plain
data throughout. -/

namespace Sys2Proof.Machine

/-- One conversion sequence: DONE[n] (R20), BUSY[n] (R21) and RES[n] (R22). -/
structure Seq where
  done : Bool
  busy : Bool
  res : RawCode
  deriving DecidableEq, Repr, Inhabited

/-- One timer: EN[t] and IE[t] (R23), TO[t] as `tmo` (R26), LOAD[t] (R24) and VAL[t] (R25). -/
structure Timer where
  en : Bool
  ie : Bool
  tmo : Bool
  load : Word
  val : Word
  deriving DecidableEq, Repr, Inhabited

/-- The TAQ block: the state of R20 to R28 and nothing else (R30 to R33). -/
structure Block where
  seq0 : Seq
  seq1 : Seq
  seq2 : Seq
  tmr0 : Timer
  tmr1 : Timer
  /-- S.TC_CODE (R28). -/
  tcCode : RawCode
  deriving DecidableEq, Repr, Inhabited

/-- One harness register with its written bit (R180). -/
structure HReg where
  val : Word
  written : Bool
  deriving DecidableEq, Repr, Inhabited

/-- The closed list of harness faults (R197). They are recorded in the state: a faulted host has no step, and the
block's agents go on. -/
inductive HarnessFault where
  /-- Raised by WR, ANDI, ADDI, BZ, BNZ on a register that holds no written value (R180). -/
  | unwrittenRegister (pc : Nat) (i : RegIdx)
  /-- Raised by the fetch at a pc past the program's end (R181). -/
  | pcOutOfRange (pc : Nat)
  /-- Raised by an illegal word (R195). -/
  | illegalInstruction (pc : Nat) (word : Word)
  /-- Raised by RD and WR on a bus error (R198). -/
  | busFault (pc : Nat) (addr : Nat) (kind : BusErrorKind)
  /-- Raised by RETI with no saved pc (R193). -/
  | retiOutsideHandler (pc : Nat)
  /-- Raised by interrupt entry where the program names no handler (R196). -/
  | noVector (t : TmrIdx)
  deriving DecidableEq, Repr, Inhabited

/-- The HPL32 harness (R180, R181). The program text and its handler entries are part of it and never change. -/
structure Harness where
  /-- x[0] to x[7] (R180). -/
  regs : Vector HReg 8
  /-- The index of the word being executed (R181). -/
  pc : Nat
  /-- The program text w[0..L-1] (R181). -/
  prog : List Word
  /-- VEC0, where the program's header names it (R181, R196). -/
  vec0 : Option Nat
  /-- VEC1, where the program's header names it (R181, R196). -/
  vec1 : Option Nat
  /-- IEN (R181). -/
  ien : Bool
  /-- EPC, the saved pc (R181). -/
  epc : Nat
  /-- EPC.valid (R181). -/
  epcValid : Bool
  /-- halted (R181). -/
  halted : Bool
  /-- The recorded fault (R181, R197). -/
  fault : Option HarnessFault
  deriving DecidableEq, Repr

/-- What the host received for its last bus access outside HPL32 (R70, R210, R212). It belongs to the host's side of
the bus: the block keeps no error register (R212). -/
inductive BusResp where
  /-- A read's DATA word. -/
  | readData (data : Word)
  /-- An accepted write. -/
  | writeDone
  /-- A bus error with the full host address and its kind. -/
  | busError (addr : Nat) (kind : BusErrorKind)
  deriving DecidableEq, Repr, Inhabited

/-- The one host of the system (R227): the HPL32 harness (R182), or any other bus master (R9). -/
inductive HostKind where
  | hpl32
  | busMaster
  deriving DecidableEq, Repr, Inhabited

/-- Which host drives the block, and whether it caches the window (R65). Fixed for a run. -/
structure Platform where
  cachesWindow : Bool
  host : HostKind
  deriving DecidableEq, Repr, Inhabited

/-- A write that has completed for the host and has not reached the block (R62). -/
structure PostedWrite where
  reg : Reg
  data : Word
  deriving DecidableEq, Repr, Inhabited

/-- The host's bus: HOST_POSTED_WRITES (R8, R62) with what a posting bus holds. -/
inductive HostBus where
  /-- HOST_POSTED_WRITES = false: a write reaches the block as it completes. -/
  | direct
  /-- HOST_POSTED_WRITES = true: the writes waiting, oldest first, and whether the host's barrier waits for them. -/
  | posting (waiting : List PostedWrite) (fenced : Bool)
  deriving DecidableEq, Repr, Inhabited

/-- The whole machine. -/
structure State where
  /-- The TAQ block. -/
  block : Block
  /-- The HPL32 harness. -/
  host : Harness
  /-- The response to the last bus access outside HPL32. -/
  resp : Option BusResp
  /-- Which host this is, fixed for a run. -/
  plat : Platform
  /-- The host's bus (R62). -/
  bus : HostBus
  /-- The model's own: the context of a host other than HPL32, as HOST_TRAP sees it. -/
  ctx : Nat
  /-- The model's own: the agent steps still to come, in order; any interleaving is some value of it (R9, R61). -/
  schedule : List Event
  /-- The model's own: how many draws the free values have answered (R12 draw). -/
  draws : Nat
  deriving DecidableEq, Repr

/-- Why a step ends the run with a fault. -/
inductive Fault where
  /-- Raised by a step whose access is at a bus address outside the window: it does not reach the block, and what
  answers there is not in the spec (R50). Safe: the model stops where the host's system would go on. -/
  | outsideWindow (addr : Nat)
  deriving DecidableEq, Repr

/-- Why a step is refused. -/
inductive Refusal where
  /-- Raised by an arm of exec whose instruction has no meaning yet; no arm does. Safe: the model stops. -/
  | notModelled (mnemonic : String)
  /-- Raised by a step whose access has W = 1 and X = 1: no bus transaction (R72 step 1, R74). Safe: nothing
  reaches the block, and the model stops. -/
  | notABusAccess (desc : Desc)
  /-- Raised by every step of a machine whose host caches the window (R65: a model must refuse it). Safe. -/
  | windowCached
  deriving DecidableEq, Repr

/-- The three outcomes of a step of this machine. -/
abbrev Result := Host.Outcome State Fault Refusal

/-! ## Reset -/

/-- A sequence at the start: DONE and BUSY are 0 (R20, R21); RES is unspecified, and the model names 0. -/
def Seq.start : Seq := { done := false, busy := false, res := 0#12 }

/-- A timer at the start: EN, IE and TO are 0 (R23, R26); LOAD and VAL are unspecified, and the model names 0. -/
def Timer.start : Timer := { en := false, ie := false, tmo := false, load := 0#32, val := 0#32 }

/-- The block right after reset (R240). -/
def Block.start : Block :=
  { seq0 := .start, seq1 := .start, seq2 := .start, tmr0 := .start, tmr1 := .start, tcCode := 0#12 }

/-- A register at the start of a run: unwritten (R180); what it holds is never read, and the model names 0. -/
def HReg.start : HReg := { val := 0#32, written := false }

/-- The harness at the start of a run (R180, R181, R241), with no program loaded. -/
def Harness.start : Harness :=
  { regs := #v[.start, .start, .start, .start, .start, .start, .start, .start]
    pc := 0
    prog := []
    vec0 := none
    vec1 := none
    ien := false
    epc := 0
    epcValid := false
    halted := false
    fault := none }

/-- The machine right after reset: the HPL32 host, which does not cache the window (R65), on a bus that posts no write
(R62), nothing scheduled and nothing drawn. -/
def State.reset : State :=
  { block := .start
    host := .start
    resp := none
    plat := { cachesWindow := false, host := .hpl32 }
    bus := .direct
    ctx := 0
    schedule := []
    draws := 0 }

end Sys2Proof.Machine
end

