-- ==== Sys2Proof/Machine/Flags.lean ====
section
/-! DEFINITION. Every flag the spec computes: the interrupt lines (R27) and the status and control words a host reads
(R36, R39, R40). HPL32 has no flags (43_host_harness.md). -/

namespace Sys2Proof.Machine

/-- IRQ[t] = TO[t] AND IE[t], a level (R27, R216). -/
def irqOf (q : Timer) : Bool := q.tmo && q.ie

/-- Sequence n of the block. -/
def seqOf (b : Block) : SeqIdx → Seq
  | 0 => b.seq0
  | 1 => b.seq1
  | 2 => b.seq2

/-- Timer t of the block. -/
def tmrOf (b : Block) : TmrIdx → Timer
  | 0 => b.tmr0
  | 1 => b.tmr1

/-- The interrupt line IRQ[t] of the block (R27). -/
def irqLevel (b : Block) (t : TmrIdx) : Bool := irqOf (tmrOf b t)

/-- One flag as one bit of a word under assembly. -/
def flagBit (f : Bool) : BitVec 1 := BitVec.ofBool f

/-- SEQ_STAT: BUSY in bits 10:8, DONE in bits 2:0, every other bit 0 (R36, R101). -/
def seqStatWord (b : Block) : Word :=
  (flagBit b.seq2.busy ++ (flagBit b.seq1.busy ++ (flagBit b.seq0.busy ++ (0#5 ++
    (flagBit b.seq2.done ++ (flagBit b.seq1.done ++ flagBit b.seq0.done)))))).setWidth 32

/-- TMR_CTL: IE in bits 5:4, EN in bits 1:0, every other bit 0 (R39, R131). -/
def tmrCtlWord (b : Block) : Word :=
  (flagBit b.tmr1.ie ++ (flagBit b.tmr0.ie ++ (0#2 ++
    (flagBit b.tmr1.en ++ flagBit b.tmr0.en)))).setWidth 32

/-- TMR_STAT: IRQ in bits 5:4, TO in bits 1:0, every other bit 0 (R40, R134). -/
def tmrStatWord (b : Block) : Word :=
  (flagBit (irqOf b.tmr1) ++ (flagBit (irqOf b.tmr0) ++ (0#2 ++
    (flagBit b.tmr1.tmo ++ flagBit b.tmr0.tmo)))).setWidth 32

/-- The host's interrupt inputs that the block's lines assert, through a routing: IRQ_LINE (R217), or the lines
themselves. -/
def assertedInputs {ι : Type} (irqLine : TmrIdx → ι) (b : Block) : List ι :=
  (if irqLevel b 0 then [irqLine 0] else []) ++ (if irqLevel b 1 then [irqLine 1] else [])

end Sys2Proof.Machine
end

