-- ==== Sys2Proof/Machine/Operands.lean ====
section
/-! DEFINITION. Every operand form: the bits of a write's DATA word (R71), the immediates of HPL32 (R79) and a register
operand with its written bit (R180). -/

namespace Sys2Proof.Machine

/-- DATA[k], one bit of a write's operand (R71). -/
def dataBit (data : Word) (k : Nat) : Bool := data.getLsbD k

/-- DATA[11:0], the defined field of TC_CODE (R44, R162). -/
def dataCode (data : Word) : RawCode := data.extractLsb' 0 12

/-- A 12-bit code as a read result: zero-extended (R71, R105). -/
def zextCode (c : RawCode) : Word := c.setWidth 32

/-- The operand of LI and ANDI: zext_32(IMM) (R79). -/
def zextImm (imm : Imm) : Word := imm.setWidth 32

/-- The operand of ADDI: sext_32(IMM) (R79). -/
def sextImm (imm : Imm) : Word := imm.signExtend 32

/-- The target of BZ, BNZ and J: the absolute statement index IMM (R79). -/
def targetIndex (imm : Imm) : Nat := imm.toNat

/-- Register i with its written bit. -/
def regOf (h : Harness) (i : RegIdx) : HReg := h.regs[i]

/-- Reading register i: its value, or the fault UnwrittenRegister(pc, i) (R180). -/
def readOperand (h : Harness) (i : RegIdx) : Except HarnessFault Word :=
  if (regOf h i).written then .ok (regOf h i).val else .error (.unwrittenRegister h.pc i)

end Sys2Proof.Machine
end

