-- ==== Sys2Proof/Machine/Ops.lean ====
section
/-! DEFINITION. The named operations every meaning is written over: the units' operations on one sequence and one timer,
the two ways a bus access is answered, the harness's registers and pc, and, each once, recording a harness fault,
taking an interrupt and returning from one. -/

namespace Sys2Proof.Machine

/-! ## The block -/

/-- The host address of an offset: TAQ_BASE + OFF (R70). -/
def hostAddr (off : Offset) : Nat := Config.taqBase + off.toNat

/-- The offset of a host address inside the window; none outside it (R50). -/
def windowOffset (addr : Nat) : Option Offset :=
  if Config.taqBase ≤ addr ∧ addr < Config.taqBase + 4096 then
    some (BitVec.ofNat 12 (addr - Config.taqBase))
  else none

/-- Replace sequence n. -/
def setSeq (b : Block) (q : Seq) : SeqIdx → Block
  | 0 => { b with seq0 := q }
  | 1 => { b with seq1 := q }
  | 2 => { b with seq2 := q }

/-- Replace timer t. -/
def setTmr (b : Block) (q : Timer) : TmrIdx → Block
  | 0 => { b with tmr0 := q }
  | 1 => { b with tmr1 := q }

/-- Replace every sequence by what `f` makes of it, all from the state before the step (R11). -/
def mapSeqs (f : SeqIdx → Seq → Seq) (b : Block) : Block :=
  { b with seq0 := f 0 b.seq0, seq1 := f 1 b.seq1, seq2 := f 2 b.seq2 }

/-- Replace both timers by what `f` makes of them, all from the state before the step (R11). -/
def mapTmrs (f : TmrIdx → Timer → Timer) (b : Block) : Block :=
  { b with tmr0 := f 0 b.tmr0, tmr1 := f 1 b.tmr1 }

/-- The software trigger of one sequence: an idle one starts, a busy one ignores it; DONE stays (R100). -/
def triggerSeq (q : Seq) : Seq := if q.busy then q else { q with busy := true }

/-- Clear one sequence's completion flag; BUSY and RES stay (R103). -/
def clearDone (q : Seq) : Seq := { q with done := false }

/-- Complete one sequence's conversion with code c: the three writes of R112 at once. -/
def completeSeq (c : RawCode) (q : Seq) : Seq := { q with res := c, done := true, busy := false }

/-- Write one timer's EN and IE; a change of EN from 0 to 1 loads VAL from LOAD (R132, R133). TO stays. -/
def controlTmr (en' ie' : Bool) (q : Timer) : Timer :=
  { q with
    val := if !q.en && en' then q.load else q.val
    en := en'
    ie := ie' }

/-- Acknowledge one timer's timeout (R136). -/
def ackTmr (q : Timer) : Timer := { q with tmo := false }

/-- One tick of an enabled timer: at 0 it reloads and times out, otherwise it counts down (R140). -/
def tickTmr (q : Timer) : Timer :=
  if q.val = 0#32 then { q with val := q.load, tmo := true } else { q with val := q.val - 1#32 }

/-- The block after RESET, with the draws of R240 for the values it leaves unspecified. -/
def resetBlock (res : SeqIdx → RawCode) (load val : TmrIdx → Word) : Block :=
  { seq0 := { done := false, busy := false, res := res 0 }
    seq1 := { done := false, busy := false, res := res 1 }
    seq2 := { done := false, busy := false, res := res 2 }
    tmr0 := { en := false, ie := false, tmo := false, load := load 0, val := val 0 }
    tmr1 := { en := false, ie := false, tmo := false, load := load 1, val := val 1 }
    tcCode := 0#12 }

/-! ## The answer to a bus access outside HPL32 -/

/-- A read completes: the block returns DATA and no state of it changes (R56, R70). -/
def answerRead (data : Word) (s : State) : State := { s with resp := some (.readData data) }

/-- A write completes with the block as the register's write rule leaves it (R60 (c), R70). -/
def answerWrite (b : Block) (s : State) : State := { s with block := b, resp := some .writeDone }

/-- The access ends in a bus error: the host receives it, does with it what its HOST_TRAP says, and no block state changes
(R210, R212). -/
def answerBusError (off : Offset) (kind : BusErrorKind) (s : State) : State :=
  { s with
    resp := some (.busError (hostAddr off) kind)
    ctx := Config.hostTrap.busError s.ctx (hostAddr off) kind }

/-! ## The harness -/

/-- Write register i and set its written bit (R180). -/
def writeReg (i : RegIdx) (v : Word) (s : State) : State :=
  { s with host := { s.host with regs := s.host.regs.set i.val { val := v, written := true } i.isLt } }

/-- pc <- target. -/
def setPc (target : Nat) (s : State) : State := { s with host := { s.host with pc := target } }

/-- pc <- pc + 1 (R181). -/
def advancePc (s : State) : State := setPc (s.host.pc + 1) s

/-- Replace the block. -/
def setBlock (b : Block) (s : State) : State := { s with block := b }

/-- IEN <- v. -/
def setIen (v : Bool) (s : State) : State := { s with host := { s.host with ien := v } }

/-- halted <- 1 (R194). -/
def haltHost (s : State) : State := { s with host := { s.host with halted := true } }

/-- Record a harness fault: nothing else changes, and the Host has no further step (R182, R195, R197). -/
def recordFault (f : HarnessFault) (s : State) : State := { s with host := { s.host with fault := some f } }

/-- Read register rs and go on with its value; an unwritten one records its fault instead (R180). -/
def withOperand (rs : RegIdx) (k : Word → State) (s : State) : State :=
  match readOperand s.host rs with
  | .ok v => k v
  | .error f => recordFault f s

/-- VEC_t (R196). -/
def vectorOf (h : Harness) : TmrIdx → Option Nat
  | 0 => h.vec0
  | 1 => h.vec1

/-- Whether the Host has a step at all (R182). -/
def hostActive (h : Harness) : Bool := !h.halted && h.fault.isNone

/-! ## Taking an interrupt and returning from one -/

/-- Which line HPL32 takes: none unless the Host has a step and IEN = 1, else IRQ[0] first (R196, R218). -/
def hplTakes (h : Harness) (asserted : List TmrIdx) : Option TmrIdx :=
  if hostActive h && h.ien then
    if asserted.contains 0 then some 0 else if asserted.contains 1 then some 1 else none
  else none

/-- HPL32's entry: EPC <- pc, EPC.valid <- 1, IEN <- 0, pc <- VEC_t; without VEC_t the fault NoVector(t) (R196, R219). -/
def hplEnter (h : Harness) (t : TmrIdx) : Harness :=
  match vectorOf h t with
  | some entry => { h with epc := h.pc, epcValid := true, ien := false, pc := entry }
  | none => { h with fault := some (.noVector t) }

/-- HPL32's return, RETI: pc <- EPC, EPC.valid <- 0, IEN <- 1; with no saved pc the fault RetiOutsideHandler (R193). -/
def hplLeave (h : Harness) : Harness :=
  if h.epcValid then { h with pc := h.epc, epcValid := false, ien := true }
  else { h with fault := some (.retiOutsideHandler h.pc) }

/-- HPL32 on a bus error: the fault BusFault(pc, addr, kind), with no handler (R198). -/
def hplBusError (h : Harness) (addr : Nat) (kind : BusErrorKind) : Harness :=
  { h with fault := some (.busFault h.pc addr kind) }

/-- HPL32's instance of HOST_TRAP (R219): its inputs are the lines themselves. -/
def hpl32Trap : HostTrap TmrIdx Harness :=
  { takes := hplTakes, enter := hplEnter, leave := hplLeave, busError := hplBusError }

/-- TAKING AN INTERRUPT, on a host with HOST_TRAP p: entry where the host takes one of the asserted inputs, and nothing
otherwise (R219). -/
def takeTrap {ι σ : Type} (p : HostTrap ι σ) (asserted : List ι) (h : σ) : σ :=
  match p.takes h asserted with
  | some i => p.enter h i
  | none => h

/-- Whether HPL32's interrupt entry is enabled (R196). -/
def irqEnabled (s : State) : Bool := (hpl32Trap.takes s.host (assertedInputs id s.block)).isSome

/-- Interrupt entry of the HPL32 host (R196); nothing where it is not enabled. -/
def takeInterrupt (s : State) : State :=
  { s with host := takeTrap hpl32Trap (assertedInputs id s.block) s.host }

/-- Interrupt entry of another host, whose inputs IRQ_LINE routes (R217, R219). -/
def takeHostTrap (s : State) : State :=
  { s with ctx := takeTrap Config.hostTrap (assertedInputs Config.irqLine s.block) s.ctx }

/-- RETURNING FROM AN INTERRUPT on the HPL32 host (R193). -/
def returnFromInterrupt (s : State) : State := { s with host := hpl32Trap.leave s.host }

/-- Return from an interrupt on another host (R220). -/
def returnHostTrap (s : State) : State := { s with ctx := Config.hostTrap.leave s.ctx }

/-- A bus error on the HPL32 host's RD or WR (R198). -/
def recordBusError (off : Offset) (kind : BusErrorKind) (s : State) : State :=
  { s with host := hpl32Trap.busError s.host (hostAddr off) kind }

/-! ## The host's bus -/

/-- The writes that a posting bus has not delivered. -/
def waitingWrites : HostBus → List PostedWrite
  | .direct => []
  | .posting ws _ => ws

/-- The host's barrier holds it back: it waits until every posted write has reached the block (R62). -/
def hostFenced : HostBus → Bool
  | .direct => false
  | .posting ws fenced => fenced && !ws.isEmpty

/-- The host's barrier (R62): from now on the host waits for the writes that wait; with none waiting it is done. -/
def raiseFence : HostBus → HostBus
  | .direct => .direct
  | .posting ws _ => .posting ws (!ws.isEmpty)

end Sys2Proof.Machine
end

