-- ==== Sys2Proof/Machine/Converter.lean ====
section
/-! DEFINITION. The temperature converter unit (42_tempconv.md R160 to R167): the two conversion functions, exact over
the integers, and the operations. -/

namespace Sys2Proof.Machine

/-- trunc0(a / b) = sign(a) * (|a| div b), for b > 0 (R10). -/
def trunc0 (a : Int) (b : Nat) : Int := a.sign * ((a.natAbs / b : Nat) : Int)

/-- Celsius(r) = trunc0((1208320 - 495 * r) / 8192) (R160). -/
def celsius (r : RawCode) : Int := trunc0 (1208320 - 495 * (r.toNat : Int)) 8192

/-- Fahrenheit(C) = trunc0((9 * C + 160) / 5), from the truncated Celsius (R161). -/
def fahrenheit (c : Int) : Int := trunc0 (9 * c + 160) 5

/-- sext_32 of an integer result: its 32-bit two's-complement word (R45, R46, R71). -/
def sextResult (v : Int) : Word := BitVec.ofInt 32 v

/-! ## Reads -/

/-- R163. -/
def readTcCode (b : Block) : Word := zextCode b.tcCode
/-- R164: combinational, from TC_CODE as it stands (R170). -/
def readTcCel (b : Block) : Word := sextResult (celsius b.tcCode)
/-- R165: combinational, from TC_CODE as it stands (R170). -/
def readTcFah (b : Block) : Word := sextResult (fahrenheit (celsius b.tcCode))

/-! ## Writes -/

/-- R162: TC_CODE <- DATA[11:0]; the upper bits are ignored, not saturated. -/
def writeTcCode (data : Word) (b : Block) : Block := { b with tcCode := dataCode data }
/-- R166: read-only, ignored. -/
def writeTcCel (_data : Word) (b : Block) : Block := b
/-- R167: read-only, ignored. -/
def writeTcFah (_data : Word) (b : Block) : Block := b

/-! ## Meanings -/

/-- RD.TC_CODE (R163). -/
def execRdTcCode (s : State) : Result := .next (answerRead (readTcCode s.block) s)
/-- WR.TC_CODE (R162). -/
def execWrTcCode (data : Word) (s : State) : Result := .next (answerWrite (writeTcCode data s.block) s)
/-- RD.TC_CEL (R164). -/
def execRdTcCel (s : State) : Result := .next (answerRead (readTcCel s.block) s)
/-- WR.TC_CEL (R166). -/
def execWrTcCel (data : Word) (s : State) : Result := .next (answerWrite (writeTcCel data s.block) s)
/-- RD.TC_FAH (R165). -/
def execRdTcFah (s : State) : Result := .next (answerRead (readTcFah s.block) s)
/-- WR.TC_FAH (R167). -/
def execWrTcFah (data : Word) (s : State) : Result := .next (answerWrite (writeTcFah data s.block) s)

end Sys2Proof.Machine
end

