-- ==== Sys2Proof/Machine/Sequencer.lean ====
section
/-! DEFINITION. The sequencer unit's operations (40_sequencer.md R100 to R111), each as the word a read returns or the
block a write leaves, and as a meaning of its own. -/

namespace Sys2Proof.Machine

/-! ## Reads -/

/-- R102: a write-only register reads 0. -/
def readSeqTrig (_b : Block) : Word := 0#32
/-- R101. -/
def readSeqStat (b : Block) : Word := seqStatWord b
/-- R104: a write-only register reads 0. -/
def readSeqClr (_b : Block) : Word := 0#32
/-- R105. -/
def readSeqRes0 (b : Block) : Word := zextCode (seqOf b 0).res
/-- R106. -/
def readSeqRes1 (b : Block) : Word := zextCode (seqOf b 1).res
/-- R107. -/
def readSeqRes2 (b : Block) : Word := zextCode (seqOf b 2).res

/-! ## Writes -/

/-- R100: trigger each sequence n with DATA[n] = 1. -/
def writeSeqTrig (data : Word) (b : Block) : Block :=
  mapSeqs (fun n q => if dataBit data n.val then triggerSeq q else q) b
/-- R108: read-only, ignored. -/
def writeSeqStat (_data : Word) (b : Block) : Block := b
/-- R103: clear DONE[n] for each n with DATA[n] = 1. -/
def writeSeqClr (data : Word) (b : Block) : Block :=
  mapSeqs (fun n q => if dataBit data n.val then clearDone q else q) b
/-- R109: read-only, ignored. -/
def writeSeqRes0 (_data : Word) (b : Block) : Block := b
/-- R110: read-only, ignored. -/
def writeSeqRes1 (_data : Word) (b : Block) : Block := b
/-- R111: read-only, ignored. -/
def writeSeqRes2 (_data : Word) (b : Block) : Block := b

/-! ## Meanings -/

/-- RD.SEQ_TRIG (R102). -/
def execRdSeqTrig (s : State) : Result := .next (answerRead (readSeqTrig s.block) s)
/-- WR.SEQ_TRIG (R100). -/
def execWrSeqTrig (data : Word) (s : State) : Result := .next (answerWrite (writeSeqTrig data s.block) s)
/-- RD.SEQ_STAT (R101). -/
def execRdSeqStat (s : State) : Result := .next (answerRead (readSeqStat s.block) s)
/-- WR.SEQ_STAT (R108). -/
def execWrSeqStat (data : Word) (s : State) : Result := .next (answerWrite (writeSeqStat data s.block) s)
/-- RD.SEQ_CLR (R104). -/
def execRdSeqClr (s : State) : Result := .next (answerRead (readSeqClr s.block) s)
/-- WR.SEQ_CLR (R103). -/
def execWrSeqClr (data : Word) (s : State) : Result := .next (answerWrite (writeSeqClr data s.block) s)
/-- RD.SEQ_RES0 (R105). -/
def execRdSeqRes0 (s : State) : Result := .next (answerRead (readSeqRes0 s.block) s)
/-- WR.SEQ_RES0 (R109). -/
def execWrSeqRes0 (data : Word) (s : State) : Result := .next (answerWrite (writeSeqRes0 data s.block) s)
/-- RD.SEQ_RES1 (R106). -/
def execRdSeqRes1 (s : State) : Result := .next (answerRead (readSeqRes1 s.block) s)
/-- WR.SEQ_RES1 (R110). -/
def execWrSeqRes1 (data : Word) (s : State) : Result := .next (answerWrite (writeSeqRes1 data s.block) s)
/-- RD.SEQ_RES2 (R107). -/
def execRdSeqRes2 (s : State) : Result := .next (answerRead (readSeqRes2 s.block) s)
/-- WR.SEQ_RES2 (R111). -/
def execWrSeqRes2 (data : Word) (s : State) : Result := .next (answerWrite (writeSeqRes2 data s.block) s)

end Sys2Proof.Machine
end

