-- ==== Sys2Proof/Machine/TimerUnit.lean ====
section
/-! DEFINITION. The timer unit's operations (41_timer.md R131 to R139, R142 to R147). -/

namespace Sys2Proof.Machine

/-! ## Reads -/

/-- R131. -/
def readTmrCtl (b : Block) : Word := tmrCtlWord b
/-- R134. -/
def readTmrStat (b : Block) : Word := tmrStatWord b
/-- R137: a write-only register reads 0. -/
def readTmrClr (_b : Block) : Word := 0#32
/-- R142. -/
def readTmrLoad0 (b : Block) : Word := (tmrOf b 0).load
/-- R143. -/
def readTmrLoad1 (b : Block) : Word := (tmrOf b 1).load
/-- R144. -/
def readTmrVal0 (b : Block) : Word := (tmrOf b 0).val
/-- R145. -/
def readTmrVal1 (b : Block) : Word := (tmrOf b 1).val

/-! ## Writes -/

/-- R132: EN[t] <- DATA[t], IE[t] <- DATA[4 + t], with the enable transition of R133. -/
def writeTmrCtl (data : Word) (b : Block) : Block :=
  mapTmrs (fun t q => controlTmr (dataBit data t.val) (dataBit data (4 + t.val)) q) b
/-- R135: read-only, ignored; not an acknowledge. -/
def writeTmrStat (_data : Word) (b : Block) : Block := b
/-- R136: acknowledge each timer t with DATA[t] = 1. -/
def writeTmrClr (data : Word) (b : Block) : Block :=
  mapTmrs (fun t q => if dataBit data t.val then ackTmr q else q) b
/-- R138. -/
def writeTmrLoad0 (data : Word) (b : Block) : Block := setTmr b { tmrOf b 0 with load := data } 0
/-- R139. -/
def writeTmrLoad1 (data : Word) (b : Block) : Block := setTmr b { tmrOf b 1 with load := data } 1
/-- R146: read-only, ignored. -/
def writeTmrVal0 (_data : Word) (b : Block) : Block := b
/-- R147: read-only, ignored. -/
def writeTmrVal1 (_data : Word) (b : Block) : Block := b

/-! ## Meanings -/

/-- RD.TMR_CTL (R131). -/
def execRdTmrCtl (s : State) : Result := .next (answerRead (readTmrCtl s.block) s)
/-- WR.TMR_CTL (R132). -/
def execWrTmrCtl (data : Word) (s : State) : Result := .next (answerWrite (writeTmrCtl data s.block) s)
/-- RD.TMR_STAT (R134). -/
def execRdTmrStat (s : State) : Result := .next (answerRead (readTmrStat s.block) s)
/-- WR.TMR_STAT (R135). -/
def execWrTmrStat (data : Word) (s : State) : Result := .next (answerWrite (writeTmrStat data s.block) s)
/-- RD.TMR_CLR (R137). -/
def execRdTmrClr (s : State) : Result := .next (answerRead (readTmrClr s.block) s)
/-- WR.TMR_CLR (R136). -/
def execWrTmrClr (data : Word) (s : State) : Result := .next (answerWrite (writeTmrClr data s.block) s)
/-- RD.TMR_LOAD0 (R142). -/
def execRdTmrLoad0 (s : State) : Result := .next (answerRead (readTmrLoad0 s.block) s)
/-- WR.TMR_LOAD0 (R138). -/
def execWrTmrLoad0 (data : Word) (s : State) : Result := .next (answerWrite (writeTmrLoad0 data s.block) s)
/-- RD.TMR_LOAD1 (R143). -/
def execRdTmrLoad1 (s : State) : Result := .next (answerRead (readTmrLoad1 s.block) s)
/-- WR.TMR_LOAD1 (R139). -/
def execWrTmrLoad1 (data : Word) (s : State) : Result := .next (answerWrite (writeTmrLoad1 data s.block) s)
/-- RD.TMR_VAL0 (R144). -/
def execRdTmrVal0 (s : State) : Result := .next (answerRead (readTmrVal0 s.block) s)
/-- WR.TMR_VAL0 (R146). -/
def execWrTmrVal0 (data : Word) (s : State) : Result := .next (answerWrite (writeTmrVal0 data s.block) s)
/-- RD.TMR_VAL1 (R145). -/
def execRdTmrVal1 (s : State) : Result := .next (answerRead (readTmrVal1 s.block) s)
/-- WR.TMR_VAL1 (R147). -/
def execWrTmrVal1 (data : Word) (s : State) : Result := .next (answerWrite (writeTmrVal1 data s.block) s)

end Sys2Proof.Machine
end

