-- ==== Sys2Proof/Machine/Window.lean ====
section
/-! DEFINITION. The window as a host reaches it with word data accesses: BusRead and BusWrite of 00_scope.md R12, over
the register rules of the three units. -/

namespace Sys2Proof.Machine

/-- The read rule of each register (R73). -/
def readRegister (b : Block) : Reg → Word
  | .seqTrig => readSeqTrig b
  | .seqStat => readSeqStat b
  | .seqClr => readSeqClr b
  | .seqRes0 => readSeqRes0 b
  | .seqRes1 => readSeqRes1 b
  | .seqRes2 => readSeqRes2 b
  | .tmrCtl => readTmrCtl b
  | .tmrStat => readTmrStat b
  | .tmrClr => readTmrClr b
  | .tmrLoad0 => readTmrLoad0 b
  | .tmrLoad1 => readTmrLoad1 b
  | .tmrVal0 => readTmrVal0 b
  | .tmrVal1 => readTmrVal1 b
  | .tcCode => readTcCode b
  | .tcCel => readTcCel b
  | .tcFah => readTcFah b

/-- The write rule of each register (R73). -/
def writeRegister (data : Word) (b : Block) : Reg → Block
  | .seqTrig => writeSeqTrig data b
  | .seqStat => writeSeqStat data b
  | .seqClr => writeSeqClr data b
  | .seqRes0 => writeSeqRes0 data b
  | .seqRes1 => writeSeqRes1 data b
  | .seqRes2 => writeSeqRes2 data b
  | .tmrCtl => writeTmrCtl data b
  | .tmrStat => writeTmrStat data b
  | .tmrClr => writeTmrClr data b
  | .tmrLoad0 => writeTmrLoad0 data b
  | .tmrLoad1 => writeTmrLoad1 data b
  | .tmrVal0 => writeTmrVal0 data b
  | .tmrVal1 => writeTmrVal1 data b
  | .tcCode => writeTcCode data b
  | .tcCel => writeTcCel data b
  | .tcFah => writeTcFah data b

/-- BusRead(off): the register's read rule, or the bus error of R72 (R12). -/
def busRead (off : Offset) (b : Block) : Except BusErrorKind Word :=
  match checkOffset off with
  | .ok r => .ok (readRegister b r)
  | .error k => .error k

/-- A write to a register completes for the host: it has reached the block (R60 (c)), or waits on a posting bus behind
the writes before it (R60 (a), R62). -/
def putWrite (data : Word) (r : Reg) (s : State) : State :=
  match s.bus with
  | .direct => setBlock (writeRegister data s.block r) s
  | .posting ws fenced => { s with bus := .posting (ws ++ [{ reg := r, data := data }]) fenced }

/-- The oldest posted write reaches the block (R62). -/
def deliverOldest (s : State) : State :=
  match s.bus with
  | .posting (w :: ws) fenced =>
    { s with block := writeRegister w.data s.block w.reg, bus := .posting ws (fenced && !ws.isEmpty) }
  | .posting [] _ => s
  | .direct => s

/-- BusWrite(off, data): the register's write rule, or the bus error of R72, which the offset alone decides (R12,
R211). -/
def busWrite (off : Offset) (data : Word) (s : State) : Except BusErrorKind State :=
  match checkOffset off with
  | .ok r => .ok (putWrite data r s)
  | .error k => .error k

/-- The register and DATA word of a block write. -/
def blockWrite : Instr → Option (Reg × Word)
  | .wrSeqTrig data => some (.seqTrig, data)
  | .wrSeqStat data => some (.seqStat, data)
  | .wrSeqClr data => some (.seqClr, data)
  | .wrSeqRes0 data => some (.seqRes0, data)
  | .wrSeqRes1 data => some (.seqRes1, data)
  | .wrSeqRes2 data => some (.seqRes2, data)
  | .wrTmrCtl data => some (.tmrCtl, data)
  | .wrTmrStat data => some (.tmrStat, data)
  | .wrTmrClr data => some (.tmrClr, data)
  | .wrTmrLoad0 data => some (.tmrLoad0, data)
  | .wrTmrLoad1 data => some (.tmrLoad1, data)
  | .wrTmrVal0 data => some (.tmrVal0, data)
  | .wrTmrVal1 data => some (.tmrVal1, data)
  | .wrTcCode data => some (.tcCode, data)
  | .wrTcCel data => some (.tcCel, data)
  | .wrTcFah data => some (.tcFah, data)
  | .rdSeqTrig | .rdSeqStat | .rdSeqClr | .rdSeqRes0 | .rdSeqRes1 | .rdSeqRes2 => none
  | .rdTmrCtl | .rdTmrStat | .rdTmrClr | .rdTmrLoad0 | .rdTmrLoad1 | .rdTmrVal0 | .rdTmrVal1 => none
  | .rdTcCode | .rdTcCel | .rdTcFah => none
  | .halt | .rd _ _ | .wr _ _ | .li _ _ | .andi _ _ _ | .addi _ _ _ => none
  | .bz _ _ | .bnz _ _ | .j _ | .ei | .di | .reti | .illegal _ => none

end Sys2Proof.Machine
end

