-- ==== Sys2Proof/Machine/HostHarness.lean ====
section
/-! DEFINITION. The meanings of the HPL32 instructions (43_host_harness.md R183 to R195). -/

namespace Sys2Proof.Machine

/-- HALT (R194): the pc keeps pointing at it. -/
def execHalt (s : State) : Result := .next (haltHost s)

/-- RD rd, OFF (R183): one bus read; a bus error records BusFault (R198). -/
def execRd (rd : RegIdx) (off : Offset) (s : State) : Result :=
  match busRead off s.block with
  | .ok d => .next (advancePc (writeReg rd d s))
  | .error k => .next (recordBusError off k s)

/-- WR OFF, rs (R184): the register is read first, then one bus write; a bus error records BusFault (R198). -/
def execWr (off : Offset) (rs : RegIdx) (s : State) : Result :=
  .next (withOperand rs (fun v =>
    match busWrite off v s with
    | .ok t => advancePc t
    | .error k => recordBusError off k s) s)

/-- LI rd, imm (R185). -/
def execLi (rd : RegIdx) (imm : Imm) (s : State) : Result := .next (advancePc (writeReg rd (zextImm imm) s))

/-- ANDI rd, rs, imm (R186). -/
def execAndi (rd rs : RegIdx) (imm : Imm) (s : State) : Result :=
  .next (withOperand rs (fun v => advancePc (writeReg rd (v &&& zextImm imm) s)) s)

/-- ADDI rd, rs, imm (R187): modulo 2^32. -/
def execAddi (rd rs : RegIdx) (imm : Imm) (s : State) : Result :=
  .next (withOperand rs (fun v => advancePc (writeReg rd (v + sextImm imm) s)) s)

/-- BZ rs, target (R188). -/
def execBz (rs : RegIdx) (target : Imm) (s : State) : Result :=
  .next (withOperand rs (fun v => if v = 0#32 then setPc (targetIndex target) s else advancePc s) s)

/-- BNZ rs, target (R189). -/
def execBnz (rs : RegIdx) (target : Imm) (s : State) : Result :=
  .next (withOperand rs (fun v => if v ≠ 0#32 then setPc (targetIndex target) s else advancePc s) s)

/-- J target (R190). -/
def execJ (target : Imm) (s : State) : Result := .next (setPc (targetIndex target) s)

/-- EI (R191). -/
def execEi (s : State) : Result := .next (advancePc (setIen true s))

/-- DI (R192). -/
def execDi (s : State) : Result := .next (advancePc (setIen false s))

/-- RETI (R193). -/
def execReti (s : State) : Result := .next (returnFromInterrupt s)

/-- An illegal word (R195): only the fault is recorded. -/
def execIllegal (word : Word) (s : State) : Result :=
  .next (recordFault (.illegalInstruction s.host.pc word) s)

end Sys2Proof.Machine
end

