-- ==== Sys2Proof/Machine/Dispatch.lean ====
section
/-! DEFINITION. exec: one arm per row of spec/opcode_table.json, each one call of its meaning. -/

namespace Sys2Proof.Machine

def exec (i : Instr) (s : State) : Host.Outcome State Fault Refusal :=
  match i with
  | .rdSeqTrig => Sys2Proof.Machine.execRdSeqTrig s
  | .wrSeqTrig data => Sys2Proof.Machine.execWrSeqTrig data s
  | .rdSeqStat => Sys2Proof.Machine.execRdSeqStat s
  | .wrSeqStat data => Sys2Proof.Machine.execWrSeqStat data s
  | .rdSeqClr => Sys2Proof.Machine.execRdSeqClr s
  | .wrSeqClr data => Sys2Proof.Machine.execWrSeqClr data s
  | .rdSeqRes0 => Sys2Proof.Machine.execRdSeqRes0 s
  | .wrSeqRes0 data => Sys2Proof.Machine.execWrSeqRes0 data s
  | .rdSeqRes1 => Sys2Proof.Machine.execRdSeqRes1 s
  | .wrSeqRes1 data => Sys2Proof.Machine.execWrSeqRes1 data s
  | .rdSeqRes2 => Sys2Proof.Machine.execRdSeqRes2 s
  | .wrSeqRes2 data => Sys2Proof.Machine.execWrSeqRes2 data s
  | .rdTmrCtl => Sys2Proof.Machine.execRdTmrCtl s
  | .wrTmrCtl data => Sys2Proof.Machine.execWrTmrCtl data s
  | .rdTmrStat => Sys2Proof.Machine.execRdTmrStat s
  | .wrTmrStat data => Sys2Proof.Machine.execWrTmrStat data s
  | .rdTmrClr => Sys2Proof.Machine.execRdTmrClr s
  | .wrTmrClr data => Sys2Proof.Machine.execWrTmrClr data s
  | .rdTmrLoad0 => Sys2Proof.Machine.execRdTmrLoad0 s
  | .wrTmrLoad0 data => Sys2Proof.Machine.execWrTmrLoad0 data s
  | .rdTmrLoad1 => Sys2Proof.Machine.execRdTmrLoad1 s
  | .wrTmrLoad1 data => Sys2Proof.Machine.execWrTmrLoad1 data s
  | .rdTmrVal0 => Sys2Proof.Machine.execRdTmrVal0 s
  | .wrTmrVal0 data => Sys2Proof.Machine.execWrTmrVal0 data s
  | .rdTmrVal1 => Sys2Proof.Machine.execRdTmrVal1 s
  | .wrTmrVal1 data => Sys2Proof.Machine.execWrTmrVal1 data s
  | .rdTcCode => Sys2Proof.Machine.execRdTcCode s
  | .wrTcCode data => Sys2Proof.Machine.execWrTcCode data s
  | .rdTcCel => Sys2Proof.Machine.execRdTcCel s
  | .wrTcCel data => Sys2Proof.Machine.execWrTcCel data s
  | .rdTcFah => Sys2Proof.Machine.execRdTcFah s
  | .wrTcFah data => Sys2Proof.Machine.execWrTcFah data s
  | .halt => Sys2Proof.Machine.execHalt s
  | .rd rd off => Sys2Proof.Machine.execRd rd off s
  | .wr off rs => Sys2Proof.Machine.execWr off rs s
  | .li rd imm => Sys2Proof.Machine.execLi rd imm s
  | .andi rd rs imm => Sys2Proof.Machine.execAndi rd rs imm s
  | .addi rd rs imm => Sys2Proof.Machine.execAddi rd rs imm s
  | .bz rs target => Sys2Proof.Machine.execBz rs target s
  | .bnz rs target => Sys2Proof.Machine.execBnz rs target s
  | .j target => Sys2Proof.Machine.execJ target s
  | .ei => Sys2Proof.Machine.execEi s
  | .di => Sys2Proof.Machine.execDi s
  | .reti => Sys2Proof.Machine.execReti s
  | .illegal word => Sys2Proof.Machine.execIllegal word s

end Sys2Proof.Machine
end

