-- ==== Sys2Proof/Machine/Agents.lean ====
section
/-! DEFINITION. One step of each agent (00_scope.md R9): the Host, which is HPL32 (R182) or any other bus master, its bus
(R62), the Converter (R112), the Clock (R140) and the platform's RESET (R240). An agent whose step is not enabled changes
nothing. -/

namespace Sys2Proof.Machine

/-- An accepted access on the host's bus. A read returns the state that every earlier access left (R60 (a), (b)), so it
has no step while a posted write waits; a write reaches the block at once or is posted (R62). -/
def busAccess (i : Instr) (s : State) : Result :=
  match blockWrite i, s.bus with
  | some (r, data), .posting _ _ => .next { putWrite data r s with resp := some .writeDone }
  | some _, .direct => exec i s
  | none, bus => if (waitingWrites bus).isEmpty then exec i s else .next s

/-- The Host's access (DESC, DATA): the operation its decoding gives, a bus error answered to the host, or the refusal of
a descriptor that is no bus access (R72, R74, R210). -/
def hostAccess (d : Desc) (data : Word) (s : State) : Result :=
  match decode (.access d data) with
  | .ok i => busAccess i s
  | .error (.busError k) => .next (answerBusError (descOffset d) k s)
  | .error .notBusAccess => .refused (.notABusAccess d)

/-- A bus request by descriptor, or by address with the offset OFF = addr - TAQ_BASE (R12, R50). -/
def runRequest (r : BusReq) (s : State) : Result :=
  match r with
  | .desc d data => hostAccess d data s
  | .addr write fetch size addr data =>
    match windowOffset addr with
    | some off => hostAccess (descOf write fetch size off) data s
    | none => .fault (.outsideWindow addr)

/-- The word at the pc; none at a pc of L or more (R181). -/
def fetchWord (h : Harness) : Option Word := h.prog[h.pc]?

/-- Whether this HPL32 instruction is an accepted bus read (R183). -/
def readsWindow : Instr → Bool
  | .rd _ off => (checkOffset off).isOk
  | _ => false

/-- The HPL32 Host executes w[pc]: fetch, decode, apply; a pc past the end records PcOutOfRange (R181, R182). On a posting
bus an RD has no step while a posted write waits (R60 (a)). -/
def hostExec (s : State) : Result :=
  if hostActive s.host then
    match fetchWord s.host with
    | some w =>
      if readsWindow (decodeHpl w) && !(waitingWrites s.bus).isEmpty then .next s else exec (decodeHpl w) s
    | none => .next (recordFault (.pcOutOfRange s.host.pc) s)
  else .next s

/-- A step that only the HPL32 host has: R182 (b). -/
def hplStep (k : State → Result) (s : State) : Result :=
  match s.plat.host with
  | .hpl32 => k s
  | .busMaster => .next s

/-- A step that only a host other than HPL32 has, while its barrier does not hold it back: the HPL32 host has no step but
those of R182, and there is no second bus master (R227). -/
def masterStep (k : State → Result) (s : State) : Result :=
  match s.plat.host with
  | .hpl32 => .next s
  | .busMaster => if hostFenced s.bus then .next s else k s

/-- The Host takes an interrupt, where it takes one: HPL32 by R196, another host by its own HOST_TRAP (R182, R219). -/
def hostIrq (s : State) : Result :=
  match s.plat.host with
  | .hpl32 => .next (takeInterrupt s)
  | .busMaster => .next (if hostFenced s.bus then s else takeHostTrap s)

/-- CONV_DONE(n): enabled exactly when BUSY[n] = 1; its code is a draw of AIN(SRC(n)) (R112, R113). -/
def convDone (n : SeqIdx) (s : State) : State :=
  if (seqOf s.block n).busy then
    { s with
      block := setSeq s.block (completeSeq (Config.ain (Config.src n) s.draws) (seqOf s.block n)) n
      draws := s.draws + 1 }
  else s

/-- TICK(t): enabled exactly when EN[t] = 1 (R140). -/
def clockTick (t : TmrIdx) (s : State) : State :=
  if (tmrOf s.block t).en then setBlock (setTmr s.block (tickTmr (tmrOf s.block t)) t) s else s

/-- RESET: every state element of the block takes its reset value, the unspecified ones a draw (R240). -/
def platformReset (s : State) : State :=
  { s with
    block := resetBlock (Config.resetRes s.draws) (Config.resetLoad s.draws) (Config.resetVal s.draws)
    draws := s.draws + 1 }

/-- One step of the named agent. -/
def runEvent (e : Event) (s : State) : Result :=
  match e with
  | .reset => .next (platformReset s)
  | .convDone n => .next (convDone n s)
  | .tick t => .next (clockTick t s)
  | .hostExec => hplStep hostExec s
  | .hostIrq => hostIrq s
  | .hostReturn => masterStep (fun u => .next (returnHostTrap u)) s
  | .hostBarrier => masterStep (fun u => .next { u with bus := raiseFence u.bus }) s
  | .access r => masterStep (runRequest r) s
  | .deliver => .next (deliverOldest s)

/-- The step the schedule names first; with nothing scheduled any agent may move, and the choice is free (R9). -/
def chosenEvent (s : State) : Event :=
  match s.schedule with
  | e :: _ => e
  | [] => Config.nextEvent s.draws

/-- The state the chosen step acts on: its schedule entry, or the draw that chose it, is used up. -/
def afterChoice (s : State) : State :=
  match s.schedule with
  | _ :: rest => { s with schedule := rest }
  | [] => { s with draws := s.draws + 1 }

end Sys2Proof.Machine
end

