-- ==== Sys2Proof/Machine/Step.lean ====
section
/-! DEFINITION. The step of the machine, and where an instruction is placed so that the next step runs it. -/

namespace Sys2Proof.Machine

/-- One step of one agent (00_scope.md R9). A host that caches the window is refused (R65). -/
def step (s : State) : Host.Outcome State Fault Refusal :=
  if s.plat.cachesWindow then .refused .windowCached
  else runEvent (chosenEvent s) (afterChoice s)

/-- `prog` with w at index pc, padded with HALT words up to it. -/
def placeWord (prog : List Word) (pc : Nat) (w : Word) : List Word :=
  (prog ++ List.replicate (pc + 1 - prog.length) 0#32).set pc w

/-- A host of this kind that does not cache the window (R65). -/
def uncachedPlatform (k : HostKind) : Platform := { cachesWindow := false, host := k }

/-- A 32-bit row: the word stands at the pc of an HPL32 host that can step, and the schedule names the host next. Any
other row: the schedule names the access (DESC, DATA) of a bus master next, on a bus that posts no write. -/
def State.withFetchWord (s : State) (nbits w : Nat) : State :=
  if nbits = 32 then
    { s with
      plat := uncachedPlatform .hpl32
      bus := .direct
      host := { s.host with
        prog := placeWord s.host.prog s.host.pc (BitVec.ofNat 32 w)
        halted := false
        fault := none }
      schedule := .hostExec :: s.schedule }
  else
    { s with
      plat := uncachedPlatform .busMaster
      bus := .direct
      schedule := .access (.desc (BitVec.ofNat 16 w) (BitVec.ofNat 32 (w / 65536))) :: s.schedule }

end Sys2Proof.Machine
end

