-- ==== Sys2Proof/Safety.lean ====
section
/-! DEFINITION. The words claims are made in: the instruction and the register write of a step, the recorded fault
explained, runs, fairness (FAIR_CONV, FAIR_TICK), the end of a run (43_host_harness.md R199) and the boot sequence
(70_reset_and_hazards.md R244). -/

namespace Sys2Proof.Machine

/-! ## What a step executes -/

/-- A machine whose host does not cache the window (R65); any other one is refused. -/
def uncachedHost (s : State) : Prop := s.plat.cachesWindow = false

/-- A machine driven by the HPL32 host (R182). -/
def hplHost (s : State) : Prop := uncachedHost s ∧ s.plat.host = .hpl32

/-- A machine driven by a host other than HPL32 that its barrier does not hold back (R9, R62). -/
def masterHost (s : State) : Prop := uncachedHost s ∧ s.plat.host = .busMaster ∧ hostFenced s.bus = false

/-- The events that are steps of the Host (R9, R182). -/
def isHostEvent : Event → Bool
  | .hostExec | .hostIrq | .hostReturn | .hostBarrier | .access _ => true
  | .reset | .convDone _ | .tick _ | .deliver => false

/-- The instruction that the Host's event at this state decodes, where the host has that event. -/
def eventInstr (e : Event) (s : State) : Option Instr :=
  match e, s.plat.host with
  | .hostExec, .hpl32 => if hostActive s.host then (fetchWord s.host).map decodeHpl else none
  | .access (.desc d data), .busMaster =>
    if hostFenced s.bus then none else (decodeAccess d data).toOption
  | .access (.addr w x size addr data), .busMaster =>
    if hostFenced s.bus then none
    else (windowOffset addr).bind fun off => (decodeAccess (descOf w x size off) data).toOption
  | _, _ => none

/-- The instruction that the next step's event decodes, where there is one. -/
def stepInstr (s : State) : Option Instr := eventInstr (chosenEvent s) s

/-- The register write that an instruction makes at this state: a block write, or WR of a written register to a mapped
offset. -/
def instrWrite (h : Harness) (i : Instr) : Option (Reg × Word) :=
  match i with
  | .wr off rs =>
    match readOperand h rs, checkOffset off with
    | .ok v, .ok r => some (r, v)
    | .ok _, .error _ => none
    | .error _, _ => none
  | _ => blockWrite i

/-- The register write that reaches the block in the next step, where one does: the Host's own on a direct bus, the
oldest one of a posting bus where that is delivered (R60 (c), R62). -/
def stepWrite (s : State) : Option (Reg × Word) :=
  match chosenEvent s, s.bus with
  | .deliver, .posting (w :: _) _ => some (w.reg, w.data)
  | _, .posting _ _ => none
  | _, .direct => (stepInstr s).bind (instrWrite s.host)

/-- The code that CONV_DONE(n), as the next step, draws (R112, R113). -/
def drawnCode (s : State) (n : SeqIdx) : RawCode := Config.ain (Config.src n) (afterChoice s).draws

/-! ## The recorded fault -/

/-- The instructions that read register i before anything else (R184, R186 to R189). -/
def readsRegister (i : RegIdx) : Instr → Prop
  | .wr _ rs => rs = i
  | .andi _ rs _ => rs = i
  | .addi _ rs _ => rs = i
  | .bz rs _ => rs = i
  | .bnz rs _ => rs = i
  | _ => False

/-- The word at the pc is an instruction with this property. -/
def atPc (h : Harness) (p : Instr → Prop) : Prop := ∃ w, fetchWord h = some w ∧ p (decodeHpl w)

/-- A recorded fault names what stands at the pc, which a faulted host no longer moves (R182, R197). -/
def faultExplained (h : Harness) : HarnessFault → Prop
  | .unwrittenRegister pc i => pc = h.pc ∧ (regOf h i).written = false ∧ atPc h (readsRegister i)
  | .pcOutOfRange pc => pc = h.pc ∧ h.prog.length ≤ pc
  | .illegalInstruction pc w => pc = h.pc ∧ fetchWord h = some w ∧ isIllegalWord w = true
  | .busFault pc addr kind =>
    pc = h.pc ∧ (kind = .align ∨ kind = .unmapped) ∧ ∃ off, addr = hostAddr off ∧ checkOffset off = .error kind ∧
      atPc h (fun i => (∃ rd, i = .rd rd off) ∨ ∃ rs, i = .wr off rs)
  | .retiOutsideHandler pc => pc = h.pc ∧ h.epcValid = false ∧ atPc h (fun i => i = .reti)
  | .noVector t => vectorOf h t = none ∧ h.ien = true

/-- A recorded fault is explained by the harness as it stands; a halted host stands at a HALT (R194) and holds no
fault. -/
def hostConsistent (s : State) : Prop :=
  (∀ f, s.host.fault = some f → s.host.halted = false ∧ faultExplained s.host f) ∧
  (s.host.halted = true → atPc s.host (fun i => i = .halt))

/-! ## Runs -/

/-- Some steps of the machine, each from a state with P. -/
inductive Steps (P : State → Prop) : State → State → Prop
  | refl (s : State) : Steps P s s
  | tail (s t u : State) : Steps P s t → P t → step t = .next u → Steps P s u

/-- Events one after another, stopping where one does (R60: one interleaving of atomic steps). -/
def runEvents : List Event → State → Result
  | [], s => .next s
  | e :: rest, s =>
    match runEvent e s with
    | .next t => runEvents rest t
    | .fault f => .fault f
    | .refused r => .refused r

/-- An infinite run: `ev k` is the agent step taken from `r k` (R60). -/
def isEventRun (ev : Nat → Event) (r : Nat → State) : Prop := ∀ k, runEvent (ev k) (r k) = .next (r (k + 1))

/-- FAIR_CONV = true: a CONV_DONE(n) that stays enabled eventually fires (R115). -/
def fairConv (ev : Nat → Event) (r : Nat → State) : Prop :=
  ∀ n k, (∀ j, k ≤ j → (seqOf (r j).block n).busy = true) → ∃ j, k ≤ j ∧ ev j = .convDone n

/-- FAIR_TICK = true: a TICK(t) that stays enabled eventually fires (R150). -/
def fairTick (ev : Nat → Event) (r : Nat → State) : Prop :=
  ∀ t k, (∀ j, k ≤ j → (tmrOf (r j).block t).en = true) → ∃ j, k ≤ j ∧ ev j = .tick t

/-- Weak fairness of HPL32's interrupt entry: an entry that stays enabled is eventually taken (R196). -/
def fairIrq (ev : Nat → Event) (r : Nat → State) : Prop :=
  ∀ k, (∀ j, k ≤ j → (r j).plat.host = .hpl32 ∧ irqEnabled (r j) = true) → ∃ j, k ≤ j ∧ ev j = .hostIrq

/-- The end of a run: the host halted without a fault, no conversion in flight, no timer enabled (R199). -/
def isFinal (s : State) : Prop :=
  s.host.halted = true ∧ s.host.fault = none ∧ (∀ n, (seqOf s.block n).busy = false) ∧
  ∀ t, (tmrOf s.block t).en = false

/-- A write of DATA to a register, as the host's access (R73). -/
def writeEvent (r : Reg) (data : Word) : Event := .access (.desc (descOf true false 0b10#2 r.offset) data)

/-- Steps 3 to 5 of the boot sequence (R244): LOAD, then TMR_CLR = 0x3, then TMR_CTL = 0x33. -/
def bootEvents (load0 load1 : Word) : List Event :=
  [writeEvent .tmrLoad0 load0, writeEvent .tmrLoad1 load1, writeEvent .tmrClr 0x3#32, writeEvent .tmrCtl 0x33#32]

/-- The reload values of the document's periods, 1 s and 100 ms at F_CLK (R149). -/
def load1s (fClk : Nat) : Word := BitVec.ofNat 32 (fClk - 1)
def load100ms (fClk : Nat) : Word := BitVec.ofNat 32 (fClk / 10 - 1)

end Sys2Proof.Machine
end

