-- ==== Sys2Proof/Certificates/Slice0/Obligations.lean ====
section
/-! DEFINITION. The statements for the provers. `uncachedHost s` says that the host does not cache the window, without
which every step is refused (O11); `hplHost s` and `masterHost s` say which host drives the block. A step first uses up
the choice of the next agent: `afterChoice s`. That choice, and that a chosen agent whose step is not enabled changes
nothing else, are the model's own (log 3). -/

open Sys2Proof Sys2Proof.Machine

/-! ## Encoding -/

/-- R70, R73, R78 to R80: every well-formed instruction is read back from its own encoding, with every operand at every
value. -/
def Obligations.DecodeOfEncodeIsTheInstruction : Prop :=
  ∀ i : Instr, i.wellFormed = true → decode (encode i) = .ok i

/-- R70, R73, R78 to R81: no word and no accepted descriptor has a second reading. A read's DATA is not part of it. -/
def Obligations.EncodeOfDecodeIsTheCode : Prop :=
  (∀ w : Word, encode (decodeHpl w) = .word w ∧ (decodeHpl w).wellFormed = true) ∧
  ∀ (d : Desc) (data : Word) (i : Instr), decodeAccess d data = .ok i →
    encode i = .access d (if d.getLsbD 15 then data else 0#32)

/-- A sanity statement: a few words of the spec (R73, R183 to R190) decode to what they stand for. -/
def Obligations.SampleWordsDecode : Prop :=
  decodeAccess 0x2004#16 0#32 = .ok .rdSeqStat ∧
  decodeAccess 0xA020#16 0x33#32 = .ok (.wrTmrCtl 0x33#32) ∧
  decodeAccess 0xA048#16 5#32 = .ok (.wrTcFah 5#32) ∧
  decodeHpl 0x12000004#32 = .rd 1 0x004#12 ∧
  decodeHpl 0x20800000#32 = .wr 0x000#12 2 ∧
  decodeHpl 0x56FFFFFF#32 = .addi 3 3 0x3FFFFF#22 ∧
  decodeHpl 0x71C0000A#32 = .bnz 7 10#22 ∧
  decodeHpl 0xC0000000#32 = .illegal 0xC0000000#32

/-- R72, with the reserved offsets of R47: the tests in order, the first that applies deciding; the last clause names
the operation by its own encoding. -/
def Obligations.DescriptorTestsApplyInOrder : Prop :=
  ∀ (d : Desc) (data : Word),
    let w := d.getLsbD 15
    let x := d.getLsbD 14
    let size := d.extractLsb' 12 2
    let off := d.extractLsb' 0 12
    let reserved := off = 0x00C#12 ∨ off = 0x01C#12 ∨ off = 0x02C#12 ∨ 0x04C#12 ≤ off
    (w = true → x = true → decodeAccess d data = .error .notBusAccess) ∧
    (w = false → x = true → decodeAccess d data = .error (.busError .fetch)) ∧
    (x = false → size ≠ 0b10#2 → decodeAccess d data = .error (.busError .size)) ∧
    (x = false → size = 0b10#2 → off.extractLsb' 0 2 ≠ 0#2 → decodeAccess d data = .error (.busError .align)) ∧
    (x = false → size = 0b10#2 → off.extractLsb' 0 2 = 0#2 → reserved →
      decodeAccess d data = .error (.busError .unmapped)) ∧
    (x = false → size = 0b10#2 → off.extractLsb' 0 2 = 0#2 → ¬ reserved →
      ∃ i, decodeAccess d data = .ok i ∧ encode i = .access d (if w then data else 0#32))

/-- R195 with the MBZ fields of R80: an illegal word records its fault and does nothing else; every other word is read
as an instruction of the map. -/
def Obligations.IllegalWordsFault : Prop :=
  ∀ (w : Word) (s : State),
    let op := (w.extractLsb' 28 4).toNat
    let rd := w.extractLsb' 25 3
    let rs := w.extractLsb' 22 3
    let illegal :=
      0xC ≤ op ∨
      (rd ≠ 0#3 ∧ (op = 0x0 ∨ op = 0x2 ∨ 0x6 ≤ op)) ∨
      (rs ≠ 0#3 ∧ (op = 0x0 ∨ op = 0x1 ∨ op = 0x3 ∨ 0x8 ≤ op)) ∨
      (w.extractLsb' 0 22 ≠ 0#22 ∧ (op = 0x0 ∨ 0x9 ≤ op)) ∨
      (w.extractLsb' 12 10 ≠ 0#10 ∧ (op = 0x1 ∨ op = 0x2))
    (illegal → decodeHpl w = .illegal w) ∧
    (¬ illegal → ∀ v, decodeHpl w ≠ .illegal v) ∧
    exec (.illegal w) s = .next { s with host := { s.host with fault := some (.illegalInstruction s.host.pc w) } }

/-! ## Steps -/

/-- On a bus that posts no write, a bus master's scheduled access of a decoded operation is that operation at the state
without the schedule's entry (R9, R72). The schedule is the model's own (log 3). -/
def Obligations.StepRunsTheDecodedAccess : Prop :=
  ∀ (s : State) (d : Desc) (data : Word) (i : Instr) (rest : List Event), masterHost s → s.bus = .direct →
    s.schedule = .access (.desc d data) :: rest → decodeAccess d data = .ok i →
    step s = exec i { s with schedule := rest }

/-- R182 (b): where the HPL32 Host is chosen and can step, the word at its pc is decoded and executed. Only an RD on a
posting bus is held back, while a posted write waits (log 6). The second conjunct is the model's choice (log 3), not
R182's: the choice of the agent uses up a schedule entry, or one draw where nothing is scheduled. -/
def Obligations.StepRunsTheFetchedWord : Prop :=
  ∀ (s : State) (w : Word), hplHost s → chosenEvent s = .hostExec →
    s.host.halted = false → s.host.fault = none → s.host.prog[s.host.pc]? = some w →
    (waitingWrites s.bus = [] ∨ ∀ rd off, decodeHpl w ≠ .rd rd off) →
    step s = exec (decodeHpl w) (afterChoice s) ∧
    afterChoice s =
      { s with
        schedule := s.schedule.tail
        draws := if s.schedule = [] then s.draws + 1 else s.draws }

/-- Every finite interleaving of agent steps is the run of some schedule: scheduling `evs` before `rest` runs exactly
`evs`, whatever each event is (R9, R60, R61). The schedule is the model's own field (log 3). -/
def Obligations.ScheduleRealisesEveryInterleaving : Prop :=
  ∀ (evs rest : List Event) (s : State), uncachedHost s →
    Sys2Proof.core.run evs.length { s with schedule := evs ++ rest } = runEvents evs { s with schedule := rest }

/-- R210, R212: an access the decoder does not accept answers the host with its address and kind; what the host then
does in its own context is its HOST_TRAP (log 16), and nothing else changes. -/
def Obligations.BusErrorAnswersTheHostOnly : Prop :=
  ∀ (s : State) (d : Desc) (data : Word) (k : BusErrorKind) (rest : List Event), masterHost s →
    s.schedule = .access (.desc d data) :: rest → decodeAccess d data = .error (.busError k) →
    step s = .next
      { s with
        schedule := rest
        resp := some (.busError (Config.taqBase + (d.extractLsb' 0 12).toNat) k)
        ctx := Config.hostTrap.busError s.ctx (Config.taqBase + (d.extractLsb' 0 12).toNat) k }

/-- R72 step 1: a descriptor with W = 1 and X = 1 is refused, and nothing reaches the block. -/
def Obligations.WritingFetchIsRefused : Prop :=
  ∀ (s : State) (d : Desc) (data : Word) (rest : List Event), masterHost s →
    s.schedule = .access (.desc d data) :: rest → d.getLsbD 15 = true → d.getLsbD 14 = true →
    step s = .refused (.notABusAccess d)

/-- R65: a machine whose host caches the window is refused; by no step is any other one refused so. -/
def Obligations.CachedWindowIsRefused : Prop :=
  ∀ s : State, step s = .refused .windowCached ↔ s.plat.cachesWindow = true

/-- R50, R70: an access by host address is the access at OFF = addr - TAQ_BASE inside the window; the stop outside it is
the model's choice (log 7). -/
def Obligations.AddressedAccessUsesItsOffset : Prop :=
  ∀ (s : State) (w x : Bool) (size : BitVec 2) (addr : Nat) (data : Word) (rest : List Event), masterHost s →
    s.schedule = .access (.addr w x size addr data) :: rest →
    (∀ off : Offset, addr = Config.taqBase + off.toNat →
      step s = step { s with schedule := .access (.desc (descOf w x size off) data) :: rest }) ∧
    ((addr < Config.taqBase ∨ Config.taqBase + 4096 ≤ addr) → step s = .fault (.outsideWindow addr))

/-- R182, R197, R227: a halted or faulted HPL32 Host has no step of any kind, and one that runs has none but (a) and
(b): no access, return or barrier of another bus master. That choosing a step the Host does not have only uses up the
choice is the model's choice (log 3). -/
def Obligations.StoppedHostChangesNothing : Prop :=
  ∀ s : State, hplHost s → isHostEvent (chosenEvent s) = true →
    (s.host.halted = true ∨ s.host.fault ≠ none ∨ (chosenEvent s ≠ .hostExec ∧ chosenEvent s ≠ .hostIrq)) →
    step s = .next (afterChoice s)

/-- R181: a pc of L or more faults at its fetch. -/
def Obligations.FetchPastTheProgramFaults : Prop :=
  ∀ s : State, hplHost s → chosenEvent s = .hostExec → s.host.halted = false → s.host.fault = none →
    s.host.prog.length ≤ s.host.pc →
    step s = .next
      { afterChoice s with host := { s.host with fault := some (.pcOutOfRange s.host.pc) } }

/-! ## The sequencer -/

/-- R100: DESC 0xA000; every n with DATA[n] = 1 and BUSY[n] = 0 starts; a busy one, DONE, RES and everything else
stay. -/
def Obligations.TriggerStartsIdleSequences : Prop :=
  ∀ (data : Word) (s : State), decodeAccess 0xA000#16 data = .ok (.wrSeqTrig data) ∧ ∃ b,
    exec (.wrSeqTrig data) s = .next { s with block := b, resp := some .writeDone } ∧
    (∀ n, seqOf b n = { seqOf s.block n with busy := (seqOf s.block n).busy || data.getLsbD n.val }) ∧
    (∀ t, tmrOf b t = tmrOf s.block t) ∧ b.tcCode = s.block.tcCode

/-- R101: DESC 0x2004; DONE[n] in bit n and BUSY[n] in bit 8 + n, every other bit 0, no state of the block changed. -/
def Obligations.SeqStatShowsDoneAndBusy : Prop :=
  ∀ (data : Word) (s : State), decodeAccess 0x2004#16 data = .ok .rdSeqStat ∧ ∃ d : Word,
    exec .rdSeqStat s = .next { s with resp := some (.readData d) } ∧
    (∀ n : SeqIdx, d.getLsbD n.val = (seqOf s.block n).done ∧ d.getLsbD (8 + n.val) = (seqOf s.block n).busy) ∧
    ∀ k, 3 ≤ k → ¬ (8 ≤ k ∧ k ≤ 10) → d.getLsbD k = false

/-- R103: DESC 0xA008; DONE[n] is cleared for each n with DATA[n] = 1; BUSY, RES and everything else stay. -/
def Obligations.ClearDropsTheNamedFlags : Prop :=
  ∀ (data : Word) (s : State), decodeAccess 0xA008#16 data = .ok (.wrSeqClr data) ∧ ∃ b,
    exec (.wrSeqClr data) s = .next { s with block := b, resp := some .writeDone } ∧
    (∀ n, seqOf b n = { seqOf s.block n with done := (seqOf s.block n).done && !data.getLsbD n.val }) ∧
    (∀ t, tmrOf b t = tmrOf s.block t) ∧ b.tcCode = s.block.tcCode

/-- R105 to R107: DESC 0x2010, 0x2014 and 0x2018; zext_32(RES[n]), nothing consumed, nothing cleared. -/
def Obligations.ResultReadsAreZeroExtended : Prop :=
  ∀ (data : Word) (s : State),
    decodeAccess 0x2010#16 data = .ok .rdSeqRes0 ∧ decodeAccess 0x2014#16 data = .ok .rdSeqRes1 ∧
    decodeAccess 0x2018#16 data = .ok .rdSeqRes2 ∧
    exec .rdSeqRes0 s = .next { s with resp := some (.readData (0#20 ++ s.block.seq0.res)) } ∧
    exec .rdSeqRes1 s = .next { s with resp := some (.readData (0#20 ++ s.block.seq1.res)) } ∧
    exec .rdSeqRes2 s = .next { s with resp := some (.readData (0#20 ++ s.block.seq2.res)) }

/-- R102, R104, R137: DESC 0x2000, 0x2008 and 0x2028; a read of a write-only register returns 0 whatever the state. -/
def Obligations.WriteOnlyRegistersReadZero : Prop :=
  ∀ (data : Word) (s : State),
    decodeAccess 0x2000#16 data = .ok .rdSeqTrig ∧ decodeAccess 0x2008#16 data = .ok .rdSeqClr ∧
    decodeAccess 0x2028#16 data = .ok .rdTmrClr ∧
    exec .rdSeqTrig s = .next { s with resp := some (.readData 0#32) } ∧
    exec .rdSeqClr s = .next { s with resp := some (.readData 0#32) } ∧
    exec .rdTmrClr s = .next { s with resp := some (.readData 0#32) }

/-- R108 to R111, R135, R146, R147, R166, R167: each with its DESC, a write to a read-only register is accepted and
changes no state of the block. -/
def Obligations.ReadOnlyWritesAreIgnored : Prop :=
  ∀ (data : Word) (s : State),
    ∀ p ∈ [(0xA004#16, Instr.wrSeqStat data), (0xA010#16, .wrSeqRes0 data), (0xA014#16, .wrSeqRes1 data),
        (0xA018#16, .wrSeqRes2 data), (0xA024#16, .wrTmrStat data), (0xA038#16, .wrTmrVal0 data),
        (0xA03C#16, .wrTmrVal1 data), (0xA044#16, .wrTcCel data), (0xA048#16, .wrTcFah data)],
      decodeAccess p.1 data = .ok p.2 ∧ exec p.2 s = .next { s with resp := some .writeDone }

/-- R56: a read changes only what its host receives, and a second read returns the same word. -/
def Obligations.ReadsChangeNoStateAndRepeat : Prop :=
  ∀ (r : Reg) (s : State), ∃ d : Word,
    exec (readInstr r) s = .next { s with resp := some (.readData d) } ∧
    exec (readInstr r) { s with resp := some (.readData d) } = .next { s with resp := some (.readData d) }

/-- R112: CONV_DONE(n) is enabled exactly when BUSY[n] = 1; then RES[n] takes the drawn code, DONE[n] is set and BUSY[n]
cleared in one step, and no other sequence, timer or register changes. That a chosen CONV_DONE of an idle sequence only
uses up the choice is the model's choice (log 3); the drawn code is a free value (log 8). -/
def Obligations.CompletionSetsResultAndFlags : Prop :=
  ∀ (s : State) (n : SeqIdx), uncachedHost s → chosenEvent s = .convDone n →
    ((seqOf s.block n).busy = true → ∃ b,
      step s = .next { afterChoice s with block := b, draws := (afterChoice s).draws + 1 } ∧
      seqOf b n = { res := Config.ain (Config.src n) (afterChoice s).draws, done := true, busy := false } ∧
      (∀ m, m ≠ n → seqOf b m = seqOf s.block m) ∧ (∀ t, tmrOf b t = tmrOf s.block t) ∧
      b.tcCode = s.block.tcCode) ∧
    ((seqOf s.block n).busy = false → step s = .next (afterChoice s))

/-- R20 to R22: over every step of every agent, DONE[n] is set only by a completion and cleared only by a write of 1 to
SEQ_CLR bit n or by RESET; BUSY[n] is set only by a trigger and cleared only by a completion or RESET; RES[n] is
written only by a completion or RESET. -/
def Obligations.SequencerStateHasItsWritersOnly : Prop :=
  ∀ (s t : State) (n : SeqIdx), step s = .next t →
    let q := seqOf s.block n
    let q' := seqOf t.block n
    let completes := chosenEvent s = .convDone n ∧ q.busy = true
    let resets := chosenEvent s = .reset
    (q.done = false → q'.done = true → completes) ∧
    (q.done = true → q'.done = false →
      resets ∨ ∃ data, stepWrite s = some (.seqClr, data) ∧ data.getLsbD n.val = true) ∧
    (q.busy = false → q'.busy = true →
      ∃ data, stepWrite s = some (.seqTrig, data) ∧ data.getLsbD n.val = true) ∧
    (q.busy = true → q'.busy = false → completes ∨ resets) ∧
    (q'.res ≠ q.res → completes ∨ resets)

/-- R117: from DONE[n] = BUSY[n] = 0, after a step that triggers n and through any steps without RESET and without
another trigger of n, a state with DONE[n] = 1 or BUSY[n] = 0 holds in RES[n] the code that a CONV_DONE(n) after the
trigger drew, and the sequence is idle. -/
def Obligations.TriggeredResultIsFresh : Prop :=
  ∀ (n : SeqIdx) (s s1 t : State) (data : Word),
    (seqOf s.block n).done = false → (seqOf s.block n).busy = false →
    stepWrite s = some (.seqTrig, data) → data.getLsbD n.val = true → step s = .next s1 →
    Steps (fun u => chosenEvent u ≠ .reset ∧
      ∀ e, stepWrite u = some (.seqTrig, e) → e.getLsbD n.val = false) s1 t →
    ((seqOf t.block n).done = true ∨ (seqOf t.block n).busy = false) →
    (seqOf t.block n).busy = false ∧
    ∃ u, Steps (fun v => chosenEvent v ≠ .reset ∧
        ∀ e, stepWrite v = some (.seqTrig, e) → e.getLsbD n.val = false) s1 u ∧
      chosenEvent u = .convDone n ∧ (seqOf u.block n).busy = true ∧ (seqOf t.block n).res = drawnCode u n

/-! ## The timers -/

/-- R132, with the enable transition of R133: DESC 0xA020; EN[t] and IE[t] take DATA[t] and DATA[4 + t]; a change of
EN[t] from 0 to 1 loads VAL[t] from LOAD[t]; TO, LOAD and everything else stay. -/
def Obligations.ControlWriteSetsEnables : Prop :=
  ∀ (data : Word) (s : State), decodeAccess 0xA020#16 data = .ok (.wrTmrCtl data) ∧ ∃ b,
    exec (.wrTmrCtl data) s = .next { s with block := b, resp := some .writeDone } ∧
    (∀ t, tmrOf b t =
      { en := data.getLsbD t.val
        ie := data.getLsbD (4 + t.val)
        tmo := (tmrOf s.block t).tmo
        load := (tmrOf s.block t).load
        val := if (tmrOf s.block t).en = false ∧ data.getLsbD t.val = true
          then (tmrOf s.block t).load else (tmrOf s.block t).val }) ∧
    (∀ n, seqOf b n = seqOf s.block n) ∧ b.tcCode = s.block.tcCode

/-- R131, R134, R27: DESC 0x2020 and 0x2024; TMR_CTL shows EN[t] in bit t and IE[t] in bit 4 + t; TMR_STAT shows TO[t]
in bit t and the line IRQ[t] = TO[t] AND IE[t] in bit 4 + t; every other bit is 0. -/
def Obligations.TimerStatusShowsItsFlags : Prop :=
  ∀ (data : Word) (s : State),
    decodeAccess 0x2020#16 data = .ok .rdTmrCtl ∧ decodeAccess 0x2024#16 data = .ok .rdTmrStat ∧ ∃ c d : Word,
    exec .rdTmrCtl s = .next { s with resp := some (.readData c) } ∧
    exec .rdTmrStat s = .next { s with resp := some (.readData d) } ∧
    (∀ t : TmrIdx, c.getLsbD t.val = (tmrOf s.block t).en ∧ c.getLsbD (4 + t.val) = (tmrOf s.block t).ie ∧
      d.getLsbD t.val = (tmrOf s.block t).tmo ∧
      d.getLsbD (4 + t.val) = ((tmrOf s.block t).tmo && (tmrOf s.block t).ie) ∧
      irqLevel s.block t = ((tmrOf s.block t).tmo && (tmrOf s.block t).ie)) ∧
    ∀ k, 2 ≤ k → ¬ (4 ≤ k ∧ k ≤ 5) → c.getLsbD k = false ∧ d.getLsbD k = false

/-- R136: DESC 0xA028; TO[t] is cleared for each t with DATA[t] = 1; VAL, EN and everything else stay. -/
def Obligations.AcknowledgeDropsTheNamedTimeouts : Prop :=
  ∀ (data : Word) (s : State), decodeAccess 0xA028#16 data = .ok (.wrTmrClr data) ∧ ∃ b,
    exec (.wrTmrClr data) s = .next { s with block := b, resp := some .writeDone } ∧
    (∀ t, tmrOf b t = { tmrOf s.block t with tmo := (tmrOf s.block t).tmo && !data.getLsbD t.val }) ∧
    (∀ n, seqOf b n = seqOf s.block n) ∧ b.tcCode = s.block.tcCode

/-- R138, R139, R142 to R145: each with its DESC; LOAD[t] takes DATA and nothing else changes; LOAD[t] and VAL[t] read
as they stand. -/
def Obligations.TimerLoadsAndCounts : Prop :=
  ∀ (data : Word) (s : State),
    (∀ p ∈ [(0xA030#16, Instr.wrTmrLoad0 data), (0xA034#16, .wrTmrLoad1 data), (0x2030#16, .rdTmrLoad0),
        (0x2034#16, .rdTmrLoad1), (0x2038#16, .rdTmrVal0), (0x203C#16, .rdTmrVal1)],
      decodeAccess p.1 data = .ok p.2) ∧
    exec (.wrTmrLoad0 data) s = .next
      { s with block := { s.block with tmr0 := { s.block.tmr0 with load := data } }, resp := some .writeDone } ∧
    exec (.wrTmrLoad1 data) s = .next
      { s with block := { s.block with tmr1 := { s.block.tmr1 with load := data } }, resp := some .writeDone } ∧
    exec .rdTmrLoad0 s = .next { s with resp := some (.readData s.block.tmr0.load) } ∧
    exec .rdTmrLoad1 s = .next { s with resp := some (.readData s.block.tmr1.load) } ∧
    exec .rdTmrVal0 s = .next { s with resp := some (.readData s.block.tmr0.val) } ∧
    exec .rdTmrVal1 s = .next { s with resp := some (.readData s.block.tmr1.val) }

/-- R140: TICK(t) is enabled exactly when EN[t] = 1; at a count of 0 it reloads and sets TO[t], otherwise it counts down
by one; the other timer and everything else stay. That a chosen TICK of a disabled timer only uses up the choice is the
model's choice (log 3). -/
def Obligations.TickCountsDownOrTimesOut : Prop :=
  ∀ (s : State) (t : TmrIdx), uncachedHost s → chosenEvent s = .tick t →
    ((tmrOf s.block t).en = true → ∃ b,
      step s = .next { afterChoice s with block := b } ∧
      (((tmrOf s.block t).val.toNat = 0 ∧
          tmrOf b t = { tmrOf s.block t with val := (tmrOf s.block t).load, tmo := true }) ∨
        ∃ v : Word, v.toNat + 1 = (tmrOf s.block t).val.toNat ∧ tmrOf b t = { tmrOf s.block t with val := v }) ∧
      (∀ u, u ≠ t → tmrOf b u = tmrOf s.block u) ∧ (∀ n, seqOf b n = seqOf s.block n) ∧
      b.tcCode = s.block.tcCode) ∧
    ((tmrOf s.block t).en = false → step s = .next (afterChoice s))

/-- R141, R148: an enabled timer just loaded with L, whose EN and LOAD are then left unchanged, has after any steps of
any agents, k of them its ticks, the count L - (k mod (L + 1)); and where none of them acknowledges it, it has timed
out exactly if k is at least L + 1 or it had before: the period is L + 1 ticks, and timeouts coalesce. -/
def Obligations.PeriodIsLoadPlusOneTicks : Prop :=
  ∀ (t : TmrIdx) (evs rest : List Event) (s : State),
    s.schedule = evs ++ rest → (tmrOf s.block t).val = (tmrOf s.block t).load →
    (∀ j, j ≤ evs.length → ∃ v, Sys2Proof.core.run j s = .next v ∧
      (tmrOf v.block t).en = true ∧ (tmrOf v.block t).load = (tmrOf s.block t).load) →
    let k := evs.count (.tick t)
    ∃ u, Sys2Proof.core.run evs.length s = .next u ∧
      (tmrOf u.block t).val.toNat =
        (tmrOf s.block t).load.toNat - k % ((tmrOf s.block t).load.toNat + 1) ∧
      ((∀ j, j < evs.length → ∀ v, Sys2Proof.core.run j s = .next v →
          ∀ data, stepWrite v = some (.tmrClr, data) → data.getLsbD t.val = false) →
        (tmrOf u.block t).tmo = ((tmrOf s.block t).tmo || decide ((tmrOf s.block t).load.toNat + 1 ≤ k)))

/-- R23 to R26, R133: over every step of every agent, EN and IE change only by a write to TMR_CTL or RESET, LOAD only by
a write to TMR_LOADt or RESET, VAL only by a tick, the enable transition or RESET, and TO is set only by a timeout
and cleared only by a write of 1 to TMR_CLR bit t or by RESET. -/
def Obligations.TimerStateHasItsWritersOnly : Prop :=
  ∀ (s u : State) (t : TmrIdx), step s = .next u →
    let q := tmrOf s.block t
    let q' := tmrOf u.block t
    let ticks := chosenEvent s = .tick t ∧ q.en = true
    let resets := chosenEvent s = .reset
    (q'.en ≠ q.en ∨ q'.ie ≠ q.ie → resets ∨ ∃ data, stepWrite s = some (.tmrCtl, data) ∧
      q'.en = data.getLsbD t.val ∧ q'.ie = data.getLsbD (4 + t.val)) ∧
    (q'.load ≠ q.load → resets ∨
      stepWrite s = some (if t = 0 then .tmrLoad0 else .tmrLoad1, q'.load)) ∧
    (q'.val ≠ q.val → resets ∨ ticks ∨ ∃ data, stepWrite s = some (.tmrCtl, data) ∧
      q.en = false ∧ data.getLsbD t.val = true ∧ q'.val = q.load) ∧
    (q.tmo = false → q'.tmo = true → ticks ∧ q.val = 0#32) ∧
    (q.tmo = true → q'.tmo = false →
      resets ∨ ∃ data, stepWrite s = some (.tmrClr, data) ∧ data.getLsbD t.val = true)

/-- R57: a second write of the same word to SEQ_CLR, TMR_CLR, TMR_LOADt or TC_CODE changes nothing more, and a write to
TMR_CTL that repeats its value changes nothing. -/
def Obligations.RepeatedWritesChangeNothing : Prop :=
  ∀ (data : Word) (s t : State),
    (∀ r ∈ [Reg.seqClr, .tmrClr, .tmrLoad0, .tmrLoad1, .tcCode],
      exec (writeInstr data r) s = .next t → exec (writeInstr data r) t = .next t) ∧
    (∀ c, exec .rdTmrCtl s = .next { s with resp := some (.readData c) } →
      exec (.wrTmrCtl c) s = .next { s with resp := some .writeDone })

/-! ## The temperature converter -/

/-- R162, R163: DESC 0xA040 and 0x2040; TC_CODE takes DATA[11:0] and nothing else changes; it reads zero-extended. -/
def Obligations.ConverterCodeIsTwelveBits : Prop :=
  ∀ (data : Word) (s : State),
    decodeAccess 0xA040#16 data = .ok (.wrTcCode data) ∧ decodeAccess 0x2040#16 data = .ok .rdTcCode ∧
    exec (.wrTcCode data) s = .next
      { s with block := { s.block with tcCode := data.extractLsb' 0 12 }, resp := some .writeDone } ∧
    exec .rdTcCode s = .next { s with resp := some (.readData (0#20 ++ s.block.tcCode)) }

/-- R164, R165, by R160 and R161: DESC 0x2044 and 0x2048; TC_CEL and TC_FAH read, as two's-complement words, C =
(1208320 - 495 r) / 8192 and F = (9 C + 160) / 5, both quotients rounded toward zero, F from the rounded C. -/
def Obligations.TemperaturesAreTheTruncatedQuotients : Prop :=
  ∀ (data : Word) (s : State),
    decodeAccess 0x2044#16 data = .ok .rdTcCel ∧ decodeAccess 0x2048#16 data = .ok .rdTcFah ∧ ∃ c f : Word,
    exec .rdTcCel s = .next { s with resp := some (.readData c) } ∧
    exec .rdTcFah s = .next { s with resp := some (.readData f) } ∧
    c.toInt = Int.tdiv (1208320 - 495 * (s.block.tcCode.toNat : Int)) 8192 ∧
    f.toInt = Int.tdiv (9 * c.toInt + 160) 5

/-- R170, R254: the first read of TC_CEL or TC_FAH after a write to TC_CODE reads, as a two's-complement word, the value
of R160 or R161 at the code DATA[11:0] just written, whatever the state was before. -/
def Obligations.ConverterHasNoLatency : Prop :=
  ∀ (data : Word) (s : State), ∃ c f : Word, ∃ s' : State,
    exec (.wrTcCode data) s = .next s' ∧
    exec .rdTcCel s' = .next { s' with resp := some (.readData c) } ∧
    exec .rdTcFah s' = .next { s' with resp := some (.readData f) } ∧
    c.toInt = Int.tdiv (1208320 - 495 * ((data.extractLsb' 0 12).toNat : Int)) 8192 ∧
    f.toInt = Int.tdiv (9 * c.toInt + 160) 5

/-- R168: Celsius and Fahrenheit are non-increasing in the code. -/
def Obligations.TemperaturesFallWithTheCode : Prop :=
  ∀ a b : RawCode, a ≤ b →
    celsius b ≤ celsius a ∧ fahrenheit (celsius b) ≤ fahrenheit (celsius a)

/-- R168: Celsius takes exactly the integers from -99 to 147, Fahrenheit stays in -146 to 296, and distinct Celsius
values have distinct Fahrenheit values. -/
def Obligations.TemperatureRanges : Prop :=
  (∀ c : Int, (∃ r : RawCode, celsius r = c) ↔ -99 ≤ c ∧ c ≤ 147) ∧
  (∀ r : RawCode, -146 ≤ fahrenheit (celsius r) ∧ fahrenheit (celsius r) ≤ 296) ∧
  ∀ a b : RawCode, fahrenheit (celsius a) = fahrenheit (celsius b) → celsius a = celsius b

/-- R161: the Fahrenheit dividend is negative exactly for the codes 2739 to 4095; above zero the quotient is the floor,
below zero it is one more than the floor unless 5 divides the dividend. -/
def Obligations.FahrenheitTruncatesTowardZero : Prop :=
  ∀ r : RawCode,
    let m := 9 * celsius r + 160
    (m < 0 ↔ 2739 ≤ r.toNat) ∧
    (0 ≤ m → fahrenheit (celsius r) = Int.fdiv m 5) ∧
    (m < 0 → fahrenheit (celsius r) = if m % 5 = 0 then Int.fdiv m 5 else Int.fdiv m 5 + 1)

/-- R28: over every step of every agent, TC_CODE changes only by a write to TC_CODE, to DATA[11:0], or by RESET, to 0.
-/
def Obligations.ConverterCodeHasItsWritersOnly : Prop :=
  ∀ s t : State, step s = .next t → t.block.tcCode ≠ s.block.tcCode →
    (chosenEvent s = .reset ∧ t.block.tcCode = 0#12) ∨
    ∃ data, stepWrite s = some (.tcCode, data) ∧ t.block.tcCode = data.extractLsb' 0 12

/-! ## The harness -/

/-- R183: RD at a register's offset loads rd with the word that register's read operation returns and advances the pc;
nothing else changes. -/
def Obligations.RdLoadsTheRegistersWord : Prop :=
  ∀ (rd : RegIdx) (r : Reg) (s : State), ∃ d : Word, ∃ regs,
    exec (readInstr r) s = .next { s with resp := some (.readData d) } ∧
    exec (.rd rd r.offset) s = .next { s with host := { s.host with regs := regs, pc := s.host.pc + 1 } } ∧
    regs[rd] = { val := d, written := true } ∧ ∀ j, j ≠ rd → regs[j] = s.host.regs[j]

/-- R184: on a bus that posts no write, WR of a written register to a register's offset changes the block as that
register's write operation does and advances the pc; on a posting bus the write waits behind those before it (R62,
log 6); of an unwritten register it faults, whatever the offset, with no bus access. -/
def Obligations.WrStoresTheOperand : Prop :=
  ∀ (rs : RegIdx) (s : State),
    (s.host.regs[rs].written = true → ∀ r : Reg,
      (s.bus = .direct → ∃ b,
        exec (writeInstr s.host.regs[rs].val r) s = .next { s with block := b, resp := some .writeDone } ∧
        exec (.wr r.offset rs) s = .next { s with block := b, host := { s.host with pc := s.host.pc + 1 } }) ∧
      ∀ ws fenced, s.bus = .posting ws fenced → exec (.wr r.offset rs) s = .next
        { s with
          bus := .posting (ws ++ [{ reg := r, data := s.host.regs[rs].val }]) fenced
          host := { s.host with pc := s.host.pc + 1 } }) ∧
    (s.host.regs[rs].written = false → ∀ off, exec (.wr off rs) s = .next
      { s with host := { s.host with fault := some (.unwrittenRegister s.host.pc rs) } })

/-- R198: RD, and WR of a written register, at an offset that no register has record BusFault with the address and the
kind ALIGN or UNMAPPED, and change nothing else. -/
def Obligations.BusErrorsFaultTheHarness : Prop :=
  ∀ (rd rs : RegIdx) (off : Offset) (s : State), (∀ r : Reg, r.offset ≠ off) →
    let kind := if off.extractLsb' 0 2 = 0#2 then BusErrorKind.unmapped else BusErrorKind.align
    let faulted := { s with
      host := { s.host with fault := some (.busFault s.host.pc (Config.taqBase + off.toNat) kind) } }
    exec (.rd rd off) s = .next faulted ∧
    (s.host.regs[rs].written = true → exec (.wr off rs) s = .next faulted)

/-- R185 to R187: OP 0x3, 0x4 and 0x5; LI loads zext(IMM); ANDI and ADDI of a written rs load the AND with zext(IMM)
and the sum with sext(IMM) modulo 2^32, rs read first, the pc advances and nothing else changes; of an unwritten rs
they record UnwrittenRegister(pc, rs) and change nothing else. -/
def Obligations.ImmediateOperationsLoadTheirResult : Prop :=
  ∀ (rd rs : RegIdx) (imm : Imm) (s : State),
    let loads := fun (i : Instr) (v : Word) => ∃ regs,
      exec i s = .next { s with host := { s.host with regs := regs, pc := s.host.pc + 1 } } ∧
      regs[rd] = { val := v, written := true } ∧ ∀ j, j ≠ rd → regs[j] = s.host.regs[j]
    let faults := fun (i : Instr) =>
      exec i s = .next { s with host := { s.host with fault := some (.unwrittenRegister s.host.pc rs) } }
    decodeHpl (hplWord 0x3#4 (fieldOfReg rd) 0#3 imm) = .li rd imm ∧
    decodeHpl (hplWord 0x4#4 (fieldOfReg rd) (fieldOfReg rs) imm) = .andi rd rs imm ∧
    decodeHpl (hplWord 0x5#4 (fieldOfReg rd) (fieldOfReg rs) imm) = .addi rd rs imm ∧
    loads (.li rd imm) (0#10 ++ imm) ∧
    (s.host.regs[rs].written = true →
      loads (.andi rd rs imm) (s.host.regs[rs].val &&& (0#10 ++ imm)) ∧
      ∃ v : Word, (v.toNat : Int) = ((s.host.regs[rs].val.toNat : Int) + imm.toInt) % 4294967296 ∧
        loads (.addi rd rs imm) v) ∧
    (s.host.regs[rs].written = false → faults (.andi rd rs imm) ∧ faults (.addi rd rs imm))

/-- R188 to R190: BZ and BNZ of a written rs go to the absolute index or to pc + 1, J to the absolute index, and nothing
else changes; BZ and BNZ of an unwritten rs record UnwrittenRegister(pc, rs) and change nothing else. -/
def Obligations.BranchesSetThePc : Prop :=
  ∀ (rs : RegIdx) (target : Imm) (s : State),
    let goes := fun (i : Instr) (pc : Nat) => exec i s = .next { s with host := { s.host with pc := pc } }
    let faults := fun (i : Instr) =>
      exec i s = .next { s with host := { s.host with fault := some (.unwrittenRegister s.host.pc rs) } }
    (s.host.regs[rs].written = true →
      goes (.bz rs target) (if s.host.regs[rs].val.toNat = 0 then target.toNat else s.host.pc + 1) ∧
      goes (.bnz rs target) (if s.host.regs[rs].val.toNat = 0 then s.host.pc + 1 else target.toNat)) ∧
    (s.host.regs[rs].written = false → faults (.bz rs target) ∧ faults (.bnz rs target)) ∧
    goes (.j target) target.toNat

/-- R191, R192, R194, each with its word: EI and DI write IEN and advance the pc; HALT sets halted and leaves the pc;
nothing else changes. -/
def Obligations.EnableDisableAndHalt : Prop :=
  ∀ s : State,
    decodeHpl 0x90000000#32 = .ei ∧ decodeHpl 0xA0000000#32 = .di ∧ decodeHpl 0x00000000#32 = .halt ∧
    exec .ei s = .next { s with host := { s.host with ien := true, pc := s.host.pc + 1 } } ∧
    exec .di s = .next { s with host := { s.host with ien := false, pc := s.host.pc + 1 } } ∧
    exec .halt s = .next { s with host := { s.host with halted := true } }

/-- R193: the word 0xB0000000; RETI with a saved pc returns to it, drops it and enables interrupts; without one it
faults; nothing else changes. -/
def Obligations.RetiReturnsToTheSavedPc : Prop :=
  ∀ s : State,
    decodeHpl 0xB0000000#32 = .reti ∧
    (s.host.epcValid = true → exec .reti s = .next
      { s with host := { s.host with pc := s.host.epc, epcValid := false, ien := true } }) ∧
    (s.host.epcValid = false → exec .reti s = .next
      { s with host := { s.host with fault := some (.retiOutsideHandler s.host.pc) } })

/-- R196: HPL32's entry is enabled exactly for an active host with IEN = 1 and a line asserted; it takes IRQ[0] first,
saves the pc, clears IEN and goes to VEC_t, or records NoVector(t). That a chosen entry which is not enabled only uses
up the choice is the model's choice (log 3). -/
def Obligations.InterruptEntrySavesAndVectors : Prop :=
  ∀ s : State, hplHost s → chosenEvent s = .hostIrq →
    let irq := fun t => (tmrOf s.block t).tmo && (tmrOf s.block t).ie
    let enabled := s.host.halted = false ∧ s.host.fault = none ∧ s.host.ien = true ∧ (irq 0 = true ∨ irq 1 = true)
    let vec := if irq 0 = true then s.host.vec0 else s.host.vec1
    (enabled → ∀ entry, vec = some entry → step s = .next
      { afterChoice s with
        host := { s.host with epc := s.host.pc, epcValid := true, ien := false, pc := entry } }) ∧
    (enabled → vec = none → step s = .next
      { afterChoice s with
        host := { s.host with fault := some (.noVector (if irq 0 = true then 0 else 1)) } }) ∧
    (¬ enabled → step s = .next (afterChoice s))

/-- R221: over every step of every agent, only EI and RETI set IEN, and a saved pc appears only by interrupt entry from
IEN = 1, which clears it: handlers do not nest. -/
def Obligations.HandlersDoNotNest : Prop :=
  ∀ s t : State, step s = .next t →
    (s.host.ien = false → t.host.ien = true → stepInstr s = some .ei ∨ stepInstr s = some .reti) ∧
    (t.host.epcValid = true → (s.host.epcValid = false ∨ t.host.epc ≠ s.host.epc) →
      chosenEvent s = .hostIrq ∧ s.host.ien = true ∧ t.host.ien = false ∧ t.host.epc = s.host.pc)

/-- R181, R182, R197, R64: no step changes the program text, the handler entries or which host it is, clears a recorded
fault, ends a halt, or moves a stopped harness. That RESET is one of these steps rests on log 5 (DEDUCED). -/
def Obligations.ProgramAndFaultsAreFixed : Prop :=
  ∀ s t : State, step s = .next t →
    t.host.prog = s.host.prog ∧ t.host.vec0 = s.host.vec0 ∧ t.host.vec1 = s.host.vec1 ∧ t.plat = s.plat ∧
    ((s.host.halted = true ∨ s.host.fault ≠ none) → t.host = s.host)

/-- R180, R193 to R198: every step keeps the recorded fault explained by what stands at the pc, and a halted host at its
HALT without a fault. -/
def Obligations.RecordedFaultsStayExplained : Prop :=
  ∀ s t : State, hostConsistent s → step s = .next t → hostConsistent t

/-- The invariant of the statement before holds right after reset. -/
def Obligations.ResetIsConsistent : Prop := hostConsistent State.reset

/-- R51, R60, R183, R184: a step of the HPL32 host other than a WR leaves the block as it is, and a block operation by
descriptor leaves the harness as it is. -/
def Obligations.BlockAndHarnessMeetOnlyAtTheBus : Prop :=
  ∀ (i : Instr) (s t : State), exec i s = .next t →
    ((∃ w, i = decodeHpl w) → (∀ off rs, i ≠ .wr off rs) → t.block = s.block) ∧
    ((∃ d data, decodeAccess d data = .ok i) → t.host = s.host)

/-! ## Reset, boot and liveness -/

/-- R240, R242, R243: RESET clears DONE, BUSY, EN, IE, TO and TC_CODE whatever they were, RES, LOAD and VAL take
draws, and the block is then quiescent: no line asserted, no CONV_DONE and no TICK enabled. That the harness stays is
log 5, that an agent's step which is not enabled answers the same state is log 3: both are the model's. -/
def Obligations.ResetMakesTheBlockQuiescent : Prop :=
  ∀ s : State, uncachedHost s → chosenEvent s = .reset → ∃ t, step s = .next t ∧
    (∀ n, seqOf t.block n =
      { done := false, busy := false, res := Config.resetRes (afterChoice s).draws n }) ∧
    (∀ u, tmrOf t.block u =
      { en := false, ie := false, tmo := false
        load := Config.resetLoad (afterChoice s).draws u
        val := Config.resetVal (afterChoice s).draws u }) ∧
    t.block.tcCode = 0#12 ∧ t.host = s.host ∧ t.resp = s.resp ∧
    (∀ u, irqLevel t.block u = false) ∧
    (∀ n, runEvent (.convDone n) t = .next t) ∧ ∀ u, runEvent (.tick u) t = .next t

/-- R20, R21, R23, R26, R28, R180, R181: the values the spec gives for the start; RES, LOAD, VAL and the registers'
contents are the model's choice and are not stated. -/
def Obligations.StateAtReset : Prop :=
  let s := State.reset
  (∀ n, (seqOf s.block n).done = false ∧ (seqOf s.block n).busy = false) ∧
  (∀ t, (tmrOf s.block t).en = false ∧ (tmrOf s.block t).ie = false ∧ (tmrOf s.block t).tmo = false) ∧
  s.block.tcCode = 0#12 ∧ (∀ i, (regOf s.host i).written = false) ∧ s.host.pc = 0 ∧ s.host.ien = false ∧
  s.host.epcValid = false ∧ s.host.halted = false ∧ s.host.fault = none ∧
  exec .rdTcCel s = .next { s with resp := some (.readData 147#32) } ∧
  exec .rdTcFah s = .next { s with resp := some (.readData 296#32) }

/-- R244 steps 3 to 5: from disabled timers, the boot writes of a bus master on a bus that posts no write leave both
timers enabled and unmasked with VAL = LOAD = the written values and no timeout pending, whatever the values; the
sequencer, converter and harness are untouched. -/
def Obligations.BootSequenceArmsBothTimers : Prop :=
  ∀ (load0 load1 : Word) (s : State), s.plat.host = .busMaster → s.bus = .direct →
    (∀ t, (tmrOf s.block t).en = false) → ∃ u,
    runEvents (bootEvents load0 load1) s = .next u ∧
    tmrOf u.block 0 = { en := true, ie := true, tmo := false, load := load0, val := load0 } ∧
    tmrOf u.block 1 = { en := true, ie := true, tmo := false, load := load1, val := load1 } ∧
    (∀ n, seqOf u.block n = seqOf s.block n) ∧ u.block.tcCode = s.block.tcCode ∧ u.host = s.host

/-- R115: under FAIR_CONV = true every started conversion ends, in every run. -/
def Obligations.FairConverterEndsEveryConversion : Prop :=
  ∀ (ev : Nat → Event) (r : Nat → State), isEventRun ev r → fairConv ev r →
    ∀ n k, (seqOf (r k).block n).busy = true → ∃ j, k < j ∧ (seqOf (r j).block n).busy = false

/-- R130, R150: under FAIR_TICK = true a timer that stays enabled times out again and again, whatever its LOAD and
whatever the other agents do. -/
def Obligations.FairClockKeepsTimingOut : Prop :=
  ∀ (ev : Nat → Event) (r : Nat → State), isEventRun ev r → fairTick ev r →
    ∀ t k, (∀ j, k ≤ j → (tmrOf (r j).block t).en = true) →
      ∃ j, k ≤ j ∧ ev j = .tick t ∧ (tmrOf (r j).block t).val = 0#32 ∧ (tmrOf (r (j + 1)).block t).tmo = true

/-- R115, R247: a conversion no agent completes and no RESET ends stays in flight, through any steps whatever, and a
completion flag that was 0 stays 0: the poll for DONE[n] has no bound. -/
def Obligations.StalledConversionStaysInFlight : Prop :=
  ∀ (n : SeqIdx) (s t : State), (seqOf s.block n).busy = true →
    Steps (fun u => chosenEvent u ≠ .reset ∧ chosenEvent u ≠ .convDone n) s t →
    (seqOf t.block n).busy = true ∧ (seqOf t.block n).res = (seqOf s.block n).res ∧
    ((seqOf s.block n).done = false → (seqOf t.block n).done = false)

/-! ## Open parameters of the host -/

/-- R62 with R60 (a), HOST_POSTED_WRITES = true (the form is the model's, log 6): an accepted write completes for its
host and waits; the bus delivers the oldest one as that register's write operation; a read has no step while a write
waits, and is the read operation when none does; a barrier holds the host back until none waits. -/
def Obligations.PostedWritesArriveInOrder : Prop :=
  ∀ (s : State) (ws : List PostedWrite) (fenced : Bool), uncachedHost s → s.bus = .posting ws fenced →
    (∀ d data r v rest, masterHost s → s.schedule = .access (.desc d data) :: rest →
      decodeAccess d data = .ok (writeInstr v r) → step s = .next
        { s with
          schedule := rest
          bus := .posting (ws ++ [{ reg := r, data := v }]) fenced
          resp := some .writeDone }) ∧
    (∀ w rest, ws = w :: rest → chosenEvent s = .deliver → ∃ b,
      exec (writeInstr w.data w.reg) s = .next { s with block := b, resp := some .writeDone } ∧
      step s = .next { afterChoice s with block := b, bus := .posting rest (fenced && !rest.isEmpty) }) ∧
    (∀ d data r rest, masterHost s → s.schedule = .access (.desc d data) :: rest →
      decodeAccess d data = .ok (readInstr r) →
        step s = if ws = [] then exec (readInstr r) { s with schedule := rest }
          else .next { s with schedule := rest }) ∧
    (masterHost s → chosenEvent s = .hostBarrier →
      step s = .next { afterChoice s with bus := .posting ws (!ws.isEmpty) }) ∧
    (s.plat.host = .busMaster → fenced = true → ws ≠ [] → isHostEvent (chosenEvent s) = true →
      step s = .next (afterChoice s))

/-- R219 to R221, R217: a host other than HPL32 takes an interrupt and returns from one as the parameter HOST_TRAP says,
from the inputs that IRQ_LINE routes the asserted lines to; the block takes no part in it. -/
def Obligations.OtherHostsTrapAsTheirParameterSays : Prop :=
  ∀ s : State, masterHost s →
    let irq := fun t => (tmrOf s.block t).tmo && (tmrOf s.block t).ie
    let inputs := (if irq 0 = true then [Config.irqLine 0] else []) ++ (if irq 1 = true then [Config.irqLine 1] else [])
    (chosenEvent s = .hostIrq →
      (∀ i, Config.hostTrap.takes s.ctx inputs = some i →
        step s = .next { afterChoice s with ctx := Config.hostTrap.enter s.ctx i }) ∧
      (Config.hostTrap.takes s.ctx inputs = none → step s = .next (afterChoice s))) ∧
    (chosenEvent s = .hostReturn → step s = .next { afterChoice s with ctx := Config.hostTrap.leave s.ctx })
end

