-- ==== Sys2Proof/Laws/Encoding.lean ====
section
/-! SUPPORT. The bits and fields of a word or descriptor built from its fields, and the register map as a table. -/

namespace Sys2Proof

/-- Each bit of an HPL32 word comes from the field R78 puts there. -/
theorem getLsbD_hplWord (op : BitVec 4) (rd rs : BitVec 3) (imm : Imm) (k : Nat) :
    (hplWord op rd rs imm).getLsbD k =
      if k < 22 then imm.getLsbD k else if k < 25 then rs.getLsbD (k - 22)
      else if k < 28 then rd.getLsbD (k - 25) else op.getLsbD (k - 28) := by
  change BitVec.getLsbD (w := 4 + (3 + (3 + 22))) (op ++ (rd ++ (rs ++ imm))) k = _
  rw [BitVec.getLsbD_append, BitVec.getLsbD_append, BitVec.getLsbD_append]
  by_cases h1 : k < 22
  · simp [h1, show k < 28 by omega, show k < 25 by omega]
  · by_cases h2 : k < 25
    · simp [h1, h2, show k < 28 by omega]
    · by_cases h3 : k < 28
      · simp [h1, h2, h3]
      · simp [h1, h2, h3]

theorem hplOp_hplWord (op : BitVec 4) (rd rs : BitVec 3) (imm : Imm) : hplOp (hplWord op rd rs imm) = op := by
  apply BitVec.eq_of_getLsbD_eq
  intro k hk
  rw [hplOp, BitVec.getLsbD_extractLsb', getLsbD_hplWord]
  simp [hk, show ¬ 28 + k < 22 by omega, show ¬ 28 + k < 25 by omega]

theorem hplRd_hplWord (op : BitVec 4) (rd rs : BitVec 3) (imm : Imm) : hplRd (hplWord op rd rs imm) = rd := by
  apply BitVec.eq_of_getLsbD_eq
  intro k hk
  rw [hplRd, BitVec.getLsbD_extractLsb', getLsbD_hplWord]
  simp [hk, show ¬ 25 + k < 22 by omega, show 25 + k < 28 by omega]

theorem hplRs_hplWord (op : BitVec 4) (rd rs : BitVec 3) (imm : Imm) : hplRs (hplWord op rd rs imm) = rs := by
  apply BitVec.eq_of_getLsbD_eq
  intro k hk
  rw [hplRs, BitVec.getLsbD_extractLsb', getLsbD_hplWord]
  simp [hk, show 22 + k < 25 by omega]

theorem hplImm_hplWord (op : BitVec 4) (rd rs : BitVec 3) (imm : Imm) : hplImm (hplWord op rd rs imm) = imm := by
  apply BitVec.eq_of_getLsbD_eq
  intro k hk
  rw [hplImm, BitVec.getLsbD_extractLsb', getLsbD_hplWord]
  simp [hk]

/-- A word is the word of its own fields (R78 names every bit). -/
theorem hplWord_fields (w : Word) : hplWord (hplOp w) (hplRd w) (hplRs w) (hplImm w) = w := by
  apply BitVec.eq_of_getLsbD_eq
  intro k hk
  rw [getLsbD_hplWord]
  simp only [hplOp, hplRd, hplRs, hplImm, BitVec.getLsbD_extractLsb']
  by_cases h1 : k < 22
  · simp [h1]
  · by_cases h2 : k < 25
    · simp [h1, h2, show k - 22 < 3 by omega, show 22 + (k - 22) = k by omega]
    · by_cases h3 : k < 28
      · simp [h1, h2, h3, show k - 25 < 3 by omega, show 25 + (k - 25) = k by omega]
      · simp [h1, h2, h3, show k - 28 < 4 by omega, show 28 + (k - 28) = k by omega]

@[simp] theorem regOfField_fieldOfReg (r : RegIdx) : regOfField (fieldOfReg r) = r := by
  fin_cases r <;> rfl

@[simp] theorem fieldOfReg_regOfField (f : BitVec 3) : fieldOfReg (regOfField f) = f := by
  simp [fieldOfReg, regOfField]

theorem getLsbD_immOfOffset (off : Offset) (k : Nat) :
    (immOfOffset off).getLsbD k = if k < 12 then off.getLsbD k else false := by
  change BitVec.getLsbD (w := 10 + 12) (0#10 ++ off) k = _
  rw [BitVec.getLsbD_append]
  by_cases h : k < 12 <;> simp [h]

@[simp] theorem immOffset_immOfOffset (off : Offset) : immOffset (immOfOffset off) = off := by
  apply BitVec.eq_of_getLsbD_eq
  intro k hk
  rw [immOffset, BitVec.getLsbD_extractLsb', getLsbD_immOfOffset]
  simp [hk]

@[simp] theorem immHigh_immOfOffset (off : Offset) : immHigh (immOfOffset off) = 0#10 := by
  apply BitVec.eq_of_getLsbD_eq
  intro k hk
  rw [immHigh, BitVec.getLsbD_extractLsb', getLsbD_immOfOffset]
  simp

/-- An immediate with a zero upper part is the one of its offset (R79). -/
theorem immOfOffset_immOffset (imm : Imm) (h : immHigh imm = 0#10) : immOfOffset (immOffset imm) = imm := by
  apply BitVec.eq_of_getLsbD_eq
  intro k hk
  rw [getLsbD_immOfOffset, immOffset, BitVec.getLsbD_extractLsb']
  by_cases h12 : k < 12
  · simp [h12]
  · have := congrArg (fun v => BitVec.getLsbD v (k - 12)) h
    simp only [immHigh, BitVec.getLsbD_extractLsb'] at this
    simp only [show k - 12 < 10 by omega, show 12 + (k - 12) = k by omega] at this
    simp_all

/-- Each bit of a descriptor comes from the field R70 puts there. -/
theorem getLsbD_descOf (w x : Bool) (size : BitVec 2) (off : Offset) (k : Nat) :
    (descOf w x size off).getLsbD k =
      if k < 12 then off.getLsbD k else if k < 14 then size.getLsbD (k - 12)
      else if k = 14 then x else if k = 15 then w else false := by
  change BitVec.getLsbD (w := 1 + (1 + (2 + 12))) (BitVec.ofBool w ++ (BitVec.ofBool x ++ (size ++ off))) k = _
  rw [BitVec.getLsbD_append, BitVec.getLsbD_append, BitVec.getLsbD_append]
  by_cases h1 : k < 12
  · simp [h1, show k < 15 by omega, show k < 14 by omega]
  · by_cases h2 : k < 14
    · simp [h1, h2, show k < 15 by omega]
    · by_cases h3 : k = 14
      · subst h3; simp
      · by_cases h4 : k = 15
        · subst h4; simp
        · have : ¬ k < 1 + (2 + 12) := by omega
          have h6 : 1 ≤ k - 15 := by omega
          simp [h1, h2, h3, h4, show ¬ k < 15 by omega]
          intro hk; omega

@[simp] theorem descWrite_descOf (w x : Bool) (size : BitVec 2) (off : Offset) :
    descWrite (descOf w x size off) = w := by
  rw [descWrite, getLsbD_descOf]; simp

@[simp] theorem descFetch_descOf (w x : Bool) (size : BitVec 2) (off : Offset) :
    descFetch (descOf w x size off) = x := by
  rw [descFetch, getLsbD_descOf]; simp

@[simp] theorem descSize_descOf (w x : Bool) (size : BitVec 2) (off : Offset) :
    descSize (descOf w x size off) = size := by
  apply BitVec.eq_of_getLsbD_eq
  intro k hk
  rw [descSize, BitVec.getLsbD_extractLsb', getLsbD_descOf]
  simp [hk, show 12 + k < 14 by omega]

@[simp] theorem descOffset_descOf (w x : Bool) (size : BitVec 2) (off : Offset) :
    descOffset (descOf w x size off) = off := by
  apply BitVec.eq_of_getLsbD_eq
  intro k hk
  rw [descOffset, BitVec.getLsbD_extractLsb', getLsbD_descOf]
  simp [hk]

/-- A descriptor is the one of its own fields (R70 names every bit). -/
theorem descOf_fields (d : Desc) : descOf (descWrite d) (descFetch d) (descSize d) (descOffset d) = d := by
  apply BitVec.eq_of_getLsbD_eq
  intro k hk
  rw [getLsbD_descOf]
  simp only [descWrite, descFetch, descSize, descOffset, BitVec.getLsbD_extractLsb']
  by_cases h1 : k < 12
  · simp [h1]
  · by_cases h2 : k < 14
    · simp [h1, h2, show k - 12 < 2 by omega, show 12 + (k - 12) = k by omega]
    · by_cases h3 : k = 14
      · subst h3; simp
      · have h4 : k = 15 := by omega
        subst h4; simp

@[simp] theorem checkOffset_offset (r : Reg) : checkOffset r.offset = .ok r := by cases r <;> rfl

/-- Only a register's own offset decodes to it (R48). -/
theorem offset_of_regAt {off : Offset} {r : Reg} (h : regAt off = some r) : r.offset = off := by
  have := List.find?_some h
  simpa using this

/-- A descriptor of a word data access at a register's offset decodes to that register's operation (R73). -/
theorem decodeAccess_descOf (w : Bool) (r : Reg) (data : Word) :
    decodeAccess (descOf w false 0b10#2 r.offset) data = .ok (if w then writeInstr data r else readInstr r) := by
  simp [decodeAccess]

end Sys2Proof
end

