-- ==== Sys2Proof/Laws/State.lean ====
section
/-! SUPPORT. One lemma per field per update, each true by unfolding the update, so that no later proof unfolds one. -/

namespace Sys2Proof.Machine

variable (s : State) (b : Block) (h : Harness) (data v : Word) (off : Offset) (k : BusErrorKind) (i : RegIdx)

/-! ## Answers to the bus -/

@[simp] theorem answerRead_block : (answerRead data s).block = s.block := rfl
@[simp] theorem answerRead_host : (answerRead data s).host = s.host := rfl
@[simp] theorem answerRead_resp : (answerRead data s).resp = some (.readData data) := rfl
@[simp] theorem answerRead_plat : (answerRead data s).plat = s.plat := rfl
@[simp] theorem answerRead_bus : (answerRead data s).bus = s.bus := rfl
@[simp] theorem answerRead_ctx : (answerRead data s).ctx = s.ctx := rfl
@[simp] theorem answerRead_schedule : (answerRead data s).schedule = s.schedule := rfl
@[simp] theorem answerRead_draws : (answerRead data s).draws = s.draws := rfl
@[simp] theorem answerWrite_block : (answerWrite b s).block = b := rfl
@[simp] theorem answerWrite_host : (answerWrite b s).host = s.host := rfl
@[simp] theorem answerWrite_resp : (answerWrite b s).resp = some .writeDone := rfl
@[simp] theorem answerWrite_plat : (answerWrite b s).plat = s.plat := rfl
@[simp] theorem answerWrite_bus : (answerWrite b s).bus = s.bus := rfl
@[simp] theorem answerWrite_ctx : (answerWrite b s).ctx = s.ctx := rfl
@[simp] theorem answerWrite_schedule : (answerWrite b s).schedule = s.schedule := rfl
@[simp] theorem answerWrite_draws : (answerWrite b s).draws = s.draws := rfl
@[simp] theorem answerBusError_block : (answerBusError off k s).block = s.block := rfl
@[simp] theorem answerBusError_host : (answerBusError off k s).host = s.host := rfl
@[simp] theorem answerBusError_resp : (answerBusError off k s).resp = some (.busError (hostAddr off) k) := rfl
@[simp] theorem answerBusError_plat : (answerBusError off k s).plat = s.plat := rfl
@[simp] theorem answerBusError_bus : (answerBusError off k s).bus = s.bus := rfl
@[simp] theorem answerBusError_ctx :
    (answerBusError off k s).ctx = Config.hostTrap.busError s.ctx (hostAddr off) k := rfl
@[simp] theorem answerBusError_schedule : (answerBusError off k s).schedule = s.schedule := rfl
@[simp] theorem answerBusError_draws : (answerBusError off k s).draws = s.draws := rfl

/-! ## The harness: pc, registers, IEN, halted, fault -/

@[simp] theorem setBlock_block : (setBlock b s).block = b := rfl
@[simp] theorem setBlock_host : (setBlock b s).host = s.host := rfl
@[simp] theorem setBlock_plat : (setBlock b s).plat = s.plat := rfl
@[simp] theorem setBlock_bus : (setBlock b s).bus = s.bus := rfl
@[simp] theorem setBlock_ctx : (setBlock b s).ctx = s.ctx := rfl
@[simp] theorem setBlock_schedule : (setBlock b s).schedule = s.schedule := rfl
@[simp] theorem setBlock_resp : (setBlock b s).resp = s.resp := rfl
@[simp] theorem setBlock_draws : (setBlock b s).draws = s.draws := rfl

@[simp] theorem setPc_block (n : Nat) : (setPc n s).block = s.block := rfl
@[simp] theorem setPc_host (n : Nat) : (setPc n s).host = { s.host with pc := n } := rfl
@[simp] theorem setPc_plat (n : Nat) : (setPc n s).plat = s.plat := rfl
@[simp] theorem setPc_bus (n : Nat) : (setPc n s).bus = s.bus := rfl
@[simp] theorem setPc_ctx (n : Nat) : (setPc n s).ctx = s.ctx := rfl
@[simp] theorem setPc_schedule (n : Nat) : (setPc n s).schedule = s.schedule := rfl
@[simp] theorem setPc_resp (n : Nat) : (setPc n s).resp = s.resp := rfl
@[simp] theorem setPc_draws (n : Nat) : (setPc n s).draws = s.draws := rfl

@[simp] theorem advancePc_block : (advancePc s).block = s.block := rfl
@[simp] theorem advancePc_host : (advancePc s).host = { s.host with pc := s.host.pc + 1 } := rfl
@[simp] theorem advancePc_plat : (advancePc s).plat = s.plat := rfl
@[simp] theorem advancePc_bus : (advancePc s).bus = s.bus := rfl
@[simp] theorem advancePc_ctx : (advancePc s).ctx = s.ctx := rfl
@[simp] theorem advancePc_schedule : (advancePc s).schedule = s.schedule := rfl
@[simp] theorem advancePc_resp : (advancePc s).resp = s.resp := rfl
@[simp] theorem advancePc_draws : (advancePc s).draws = s.draws := rfl

@[simp] theorem writeReg_block : (writeReg i v s).block = s.block := rfl
@[simp] theorem writeReg_host :
    (writeReg i v s).host = { s.host with regs := s.host.regs.set i.val { val := v, written := true } i.isLt } := rfl
@[simp] theorem writeReg_plat : (writeReg i v s).plat = s.plat := rfl
@[simp] theorem writeReg_bus : (writeReg i v s).bus = s.bus := rfl
@[simp] theorem writeReg_ctx : (writeReg i v s).ctx = s.ctx := rfl
@[simp] theorem writeReg_schedule : (writeReg i v s).schedule = s.schedule := rfl
@[simp] theorem writeReg_resp : (writeReg i v s).resp = s.resp := rfl
@[simp] theorem writeReg_draws : (writeReg i v s).draws = s.draws := rfl

@[simp] theorem setIen_block (e : Bool) : (setIen e s).block = s.block := rfl
@[simp] theorem setIen_host (e : Bool) : (setIen e s).host = { s.host with ien := e } := rfl
@[simp] theorem setIen_plat (e : Bool) : (setIen e s).plat = s.plat := rfl
@[simp] theorem setIen_bus (e : Bool) : (setIen e s).bus = s.bus := rfl
@[simp] theorem setIen_ctx (e : Bool) : (setIen e s).ctx = s.ctx := rfl
@[simp] theorem setIen_schedule (e : Bool) : (setIen e s).schedule = s.schedule := rfl
@[simp] theorem setIen_resp (e : Bool) : (setIen e s).resp = s.resp := rfl
@[simp] theorem setIen_draws (e : Bool) : (setIen e s).draws = s.draws := rfl

@[simp] theorem haltHost_block : (haltHost s).block = s.block := rfl
@[simp] theorem haltHost_host : (haltHost s).host = { s.host with halted := true } := rfl
@[simp] theorem haltHost_plat : (haltHost s).plat = s.plat := rfl
@[simp] theorem haltHost_bus : (haltHost s).bus = s.bus := rfl
@[simp] theorem haltHost_ctx : (haltHost s).ctx = s.ctx := rfl
@[simp] theorem haltHost_schedule : (haltHost s).schedule = s.schedule := rfl
@[simp] theorem haltHost_resp : (haltHost s).resp = s.resp := rfl
@[simp] theorem haltHost_draws : (haltHost s).draws = s.draws := rfl

@[simp] theorem recordFault_block (f : HarnessFault) : (recordFault f s).block = s.block := rfl
@[simp] theorem recordFault_host (f : HarnessFault) : (recordFault f s).host = { s.host with fault := some f } := rfl
@[simp] theorem recordFault_plat (f : HarnessFault) : (recordFault f s).plat = s.plat := rfl
@[simp] theorem recordFault_bus (f : HarnessFault) : (recordFault f s).bus = s.bus := rfl
@[simp] theorem recordFault_ctx (f : HarnessFault) : (recordFault f s).ctx = s.ctx := rfl
@[simp] theorem recordFault_schedule (f : HarnessFault) : (recordFault f s).schedule = s.schedule := rfl
@[simp] theorem recordFault_resp (f : HarnessFault) : (recordFault f s).resp = s.resp := rfl
@[simp] theorem recordFault_draws (f : HarnessFault) : (recordFault f s).draws = s.draws := rfl

/-! ## Interrupts and bus errors -/

@[simp] theorem recordBusError_block : (recordBusError off k s).block = s.block := rfl
@[simp] theorem recordBusError_host :
    (recordBusError off k s).host = { s.host with fault := some (.busFault s.host.pc (hostAddr off) k) } := rfl
@[simp] theorem recordBusError_resp : (recordBusError off k s).resp = s.resp := rfl
@[simp] theorem recordBusError_plat : (recordBusError off k s).plat = s.plat := rfl
@[simp] theorem recordBusError_bus : (recordBusError off k s).bus = s.bus := rfl
@[simp] theorem recordBusError_ctx : (recordBusError off k s).ctx = s.ctx := rfl
@[simp] theorem recordBusError_schedule : (recordBusError off k s).schedule = s.schedule := rfl
@[simp] theorem recordBusError_draws : (recordBusError off k s).draws = s.draws := rfl

@[simp] theorem takeInterrupt_block : (takeInterrupt s).block = s.block := rfl
@[simp] theorem takeInterrupt_host :
    (takeInterrupt s).host = takeTrap hpl32Trap (assertedInputs id s.block) s.host := rfl
@[simp] theorem takeInterrupt_resp : (takeInterrupt s).resp = s.resp := rfl
@[simp] theorem takeInterrupt_plat : (takeInterrupt s).plat = s.plat := rfl
@[simp] theorem takeInterrupt_bus : (takeInterrupt s).bus = s.bus := rfl
@[simp] theorem takeInterrupt_ctx : (takeInterrupt s).ctx = s.ctx := rfl
@[simp] theorem takeInterrupt_schedule : (takeInterrupt s).schedule = s.schedule := rfl
@[simp] theorem takeInterrupt_draws : (takeInterrupt s).draws = s.draws := rfl

@[simp] theorem returnFromInterrupt_block : (returnFromInterrupt s).block = s.block := rfl
@[simp] theorem returnFromInterrupt_host : (returnFromInterrupt s).host = hplLeave s.host := rfl
@[simp] theorem returnFromInterrupt_resp : (returnFromInterrupt s).resp = s.resp := rfl
@[simp] theorem returnFromInterrupt_plat : (returnFromInterrupt s).plat = s.plat := rfl
@[simp] theorem returnFromInterrupt_bus : (returnFromInterrupt s).bus = s.bus := rfl
@[simp] theorem returnFromInterrupt_ctx : (returnFromInterrupt s).ctx = s.ctx := rfl
@[simp] theorem returnFromInterrupt_schedule : (returnFromInterrupt s).schedule = s.schedule := rfl
@[simp] theorem returnFromInterrupt_draws : (returnFromInterrupt s).draws = s.draws := rfl

@[simp] theorem takeHostTrap_block : (takeHostTrap s).block = s.block := rfl
@[simp] theorem takeHostTrap_host : (takeHostTrap s).host = s.host := rfl
@[simp] theorem takeHostTrap_resp : (takeHostTrap s).resp = s.resp := rfl
@[simp] theorem takeHostTrap_plat : (takeHostTrap s).plat = s.plat := rfl
@[simp] theorem takeHostTrap_bus : (takeHostTrap s).bus = s.bus := rfl
@[simp] theorem takeHostTrap_ctx :
    (takeHostTrap s).ctx = takeTrap Config.hostTrap (assertedInputs Config.irqLine s.block) s.ctx := rfl
@[simp] theorem takeHostTrap_schedule : (takeHostTrap s).schedule = s.schedule := rfl
@[simp] theorem takeHostTrap_draws : (takeHostTrap s).draws = s.draws := rfl

@[simp] theorem returnHostTrap_block : (returnHostTrap s).block = s.block := rfl
@[simp] theorem returnHostTrap_host : (returnHostTrap s).host = s.host := rfl
@[simp] theorem returnHostTrap_resp : (returnHostTrap s).resp = s.resp := rfl
@[simp] theorem returnHostTrap_plat : (returnHostTrap s).plat = s.plat := rfl
@[simp] theorem returnHostTrap_bus : (returnHostTrap s).bus = s.bus := rfl
@[simp] theorem returnHostTrap_ctx : (returnHostTrap s).ctx = Config.hostTrap.leave s.ctx := rfl
@[simp] theorem returnHostTrap_schedule : (returnHostTrap s).schedule = s.schedule := rfl
@[simp] theorem returnHostTrap_draws : (returnHostTrap s).draws = s.draws := rfl

/-! ## The host's bus -/

@[simp] theorem putWrite_host (r : Reg) : (putWrite data r s).host = s.host := by
  unfold putWrite; split <;> rfl
@[simp] theorem putWrite_resp (r : Reg) : (putWrite data r s).resp = s.resp := by
  unfold putWrite; split <;> rfl
@[simp] theorem putWrite_plat (r : Reg) : (putWrite data r s).plat = s.plat := by
  unfold putWrite; split <;> rfl
@[simp] theorem putWrite_ctx (r : Reg) : (putWrite data r s).ctx = s.ctx := by
  unfold putWrite; split <;> rfl
@[simp] theorem putWrite_schedule (r : Reg) : (putWrite data r s).schedule = s.schedule := by
  unfold putWrite; split <;> rfl
@[simp] theorem putWrite_draws (r : Reg) : (putWrite data r s).draws = s.draws := by
  unfold putWrite; split <;> rfl

@[simp] theorem deliverOldest_host : (deliverOldest s).host = s.host := by
  unfold deliverOldest; split <;> rfl
@[simp] theorem deliverOldest_resp : (deliverOldest s).resp = s.resp := by
  unfold deliverOldest; split <;> rfl
@[simp] theorem deliverOldest_plat : (deliverOldest s).plat = s.plat := by
  unfold deliverOldest; split <;> rfl
@[simp] theorem deliverOldest_ctx : (deliverOldest s).ctx = s.ctx := by
  unfold deliverOldest; split <;> rfl
@[simp] theorem deliverOldest_schedule : (deliverOldest s).schedule = s.schedule := by
  unfold deliverOldest; split <;> rfl
@[simp] theorem deliverOldest_draws : (deliverOldest s).draws = s.draws := by
  unfold deliverOldest; split <;> rfl

/-! ## The units of the block -/

@[simp] theorem seqOf_mapSeqs (f : SeqIdx → Seq → Seq) (n : SeqIdx) : seqOf (mapSeqs f b) n = f n (seqOf b n) := by
  fin_cases n <;> rfl
@[simp] theorem tmrOf_mapSeqs (f : SeqIdx → Seq → Seq) (t : TmrIdx) : tmrOf (mapSeqs f b) t = tmrOf b t := by
  fin_cases t <;> rfl
@[simp] theorem mapSeqs_tcCode (f : SeqIdx → Seq → Seq) : (mapSeqs f b).tcCode = b.tcCode := rfl
@[simp] theorem tmrOf_mapTmrs (f : TmrIdx → Timer → Timer) (t : TmrIdx) :
    tmrOf (mapTmrs f b) t = f t (tmrOf b t) := by
  fin_cases t <;> rfl
@[simp] theorem seqOf_mapTmrs (f : TmrIdx → Timer → Timer) (n : SeqIdx) : seqOf (mapTmrs f b) n = seqOf b n := by
  fin_cases n <;> rfl
@[simp] theorem mapTmrs_tcCode (f : TmrIdx → Timer → Timer) : (mapTmrs f b).tcCode = b.tcCode := rfl

theorem seqOf_setSeq (q : Seq) (n m : SeqIdx) : seqOf (setSeq b q n) m = if m = n then q else seqOf b m := by
  fin_cases n <;> fin_cases m <;> rfl
@[simp] theorem tmrOf_setSeq (q : Seq) (n : SeqIdx) (t : TmrIdx) : tmrOf (setSeq b q n) t = tmrOf b t := by
  fin_cases n <;> fin_cases t <;> rfl
@[simp] theorem setSeq_tcCode (q : Seq) (n : SeqIdx) : (setSeq b q n).tcCode = b.tcCode := by fin_cases n <;> rfl
theorem tmrOf_setTmr (q : Timer) (t u : TmrIdx) : tmrOf (setTmr b q t) u = if u = t then q else tmrOf b u := by
  fin_cases t <;> fin_cases u <;> rfl
@[simp] theorem seqOf_setTmr (q : Timer) (t : TmrIdx) (n : SeqIdx) : seqOf (setTmr b q t) n = seqOf b n := by
  fin_cases t <;> fin_cases n <;> rfl
@[simp] theorem setTmr_tcCode (q : Timer) (t : TmrIdx) : (setTmr b q t).tcCode = b.tcCode := by fin_cases t <;> rfl

/-- Two blocks that agree on every unit are one block. -/
theorem block_ext {b c : Block} (hs : ∀ n, seqOf b n = seqOf c n) (ht : ∀ t, tmrOf b t = tmrOf c t)
    (hc : b.tcCode = c.tcCode) : b = c := by
  have h0 := hs 0
  have h1 := hs 1
  have h2 := hs 2
  have h3 := ht 0
  have h4 := ht 1
  cases b
  cases c
  simp_all [seqOf, tmrOf]

/-! ## One sequence, one timer -/

@[simp] theorem triggerSeq_eq (q : Seq) : triggerSeq q = { q with busy := true } := by
  cases q with
  | mk d y r => cases y <;> rfl
@[simp] theorem clearDone_done (q : Seq) : (clearDone q).done = false := rfl
@[simp] theorem clearDone_busy (q : Seq) : (clearDone q).busy = q.busy := rfl
@[simp] theorem clearDone_res (q : Seq) : (clearDone q).res = q.res := rfl
@[simp] theorem completeSeq_done (c : RawCode) (q : Seq) : (completeSeq c q).done = true := rfl
@[simp] theorem completeSeq_busy (c : RawCode) (q : Seq) : (completeSeq c q).busy = false := rfl
@[simp] theorem completeSeq_res (c : RawCode) (q : Seq) : (completeSeq c q).res = c := rfl
@[simp] theorem controlTmr_en (e f : Bool) (q : Timer) : (controlTmr e f q).en = e := rfl
@[simp] theorem controlTmr_ie (e f : Bool) (q : Timer) : (controlTmr e f q).ie = f := rfl
@[simp] theorem controlTmr_tmo (e f : Bool) (q : Timer) : (controlTmr e f q).tmo = q.tmo := rfl
@[simp] theorem controlTmr_load (e f : Bool) (q : Timer) : (controlTmr e f q).load = q.load := rfl
@[simp] theorem controlTmr_val (e f : Bool) (q : Timer) :
    (controlTmr e f q).val = if !q.en && e then q.load else q.val := rfl
@[simp] theorem ackTmr_en (q : Timer) : (ackTmr q).en = q.en := rfl
@[simp] theorem ackTmr_ie (q : Timer) : (ackTmr q).ie = q.ie := rfl
@[simp] theorem ackTmr_tmo (q : Timer) : (ackTmr q).tmo = false := rfl
@[simp] theorem ackTmr_load (q : Timer) : (ackTmr q).load = q.load := rfl
@[simp] theorem ackTmr_val (q : Timer) : (ackTmr q).val = q.val := rfl
@[simp] theorem tickTmr_en (q : Timer) : (tickTmr q).en = q.en := by unfold tickTmr; split <;> rfl
@[simp] theorem tickTmr_ie (q : Timer) : (tickTmr q).ie = q.ie := by unfold tickTmr; split <;> rfl
@[simp] theorem tickTmr_load (q : Timer) : (tickTmr q).load = q.load := by unfold tickTmr; split <;> rfl
theorem tickTmr_tmo (q : Timer) : (tickTmr q).tmo = (q.tmo || decide (q.val = 0#32)) := by
  unfold tickTmr; split <;> simp_all
theorem tickTmr_val (q : Timer) : (tickTmr q).val = if q.val = 0#32 then q.load else q.val - 1#32 := by
  unfold tickTmr; split <;> rfl

/-! ## Using up the choice of the next agent -/

@[simp] theorem afterChoice_block : (afterChoice s).block = s.block := by unfold afterChoice; split <;> rfl
@[simp] theorem afterChoice_host : (afterChoice s).host = s.host := by unfold afterChoice; split <;> rfl
@[simp] theorem afterChoice_resp : (afterChoice s).resp = s.resp := by unfold afterChoice; split <;> rfl
@[simp] theorem afterChoice_plat : (afterChoice s).plat = s.plat := by unfold afterChoice; split <;> rfl
@[simp] theorem afterChoice_bus : (afterChoice s).bus = s.bus := by unfold afterChoice; split <;> rfl
@[simp] theorem afterChoice_ctx : (afterChoice s).ctx = s.ctx := by unfold afterChoice; split <;> rfl

end Sys2Proof.Machine
end

