-- ==== Sys2Proof/Laws/Ops.lean ====
section
/-! SUPPORT. For each shared operation, once, everything it can do. -/

namespace Sys2Proof.Machine

/-- Reading a register gives its value exactly where it is written (R180). -/
theorem readOperand_cases (h : Harness) (i : RegIdx) :
    ((regOf h i).written = true ∧ readOperand h i = .ok (regOf h i).val) ∨
    ((regOf h i).written = false ∧ readOperand h i = .error (.unwrittenRegister h.pc i)) := by
  unfold readOperand
  cases hw : (regOf h i).written
  · exact .inr ⟨rfl, by simp⟩
  · exact .inl ⟨rfl, by simp⟩

/-- An operation on a register operand either goes on with its value or records the unwritten register. -/
theorem withOperand_cases (rs : RegIdx) (k : Word → State) (s : State) :
    ((regOf s.host rs).written = true ∧ withOperand rs k s = k (regOf s.host rs).val) ∨
    ((regOf s.host rs).written = false ∧
      withOperand rs k s = recordFault (.unwrittenRegister s.host.pc rs) s) := by
  unfold withOperand
  obtain ⟨hw, hr⟩ | ⟨hw, hr⟩ := readOperand_cases s.host rs
  · exact .inl ⟨hw, by rw [hr]⟩
  · exact .inr ⟨hw, by rw [hr]⟩

/-- The register file after a write: the written register holds the value, every other one is as before. -/
theorem regOf_writeReg (i j : RegIdx) (v : Word) (s : State) :
    regOf (writeReg i v s).host j = if j = i then { val := v, written := true } else regOf s.host j := by
  unfold regOf
  simp only [writeReg_host, Fin.getElem_fin, Vector.getElem_set]
  by_cases hij : j = i
  · subst hij; simp
  · have : i.val ≠ j.val := fun h => hij (Fin.ext h.symm)
    simp [hij, this]

/-- HPL32 takes a line exactly where the Host has a step, IEN = 1 and the line is asserted, IRQ[0] before IRQ[1]
(R196). -/
theorem hplTakes_some {h : Harness} {b : Block} {t : TmrIdx} (ht : hplTakes h (assertedInputs id b) = some t) :
    hostActive h = true ∧ h.ien = true ∧ irqLevel b t = true ∧ (t = 1 → irqLevel b 0 = false) := by
  unfold hplTakes at ht
  split at ht
  · rename_i hc
    obtain ⟨ha, hi⟩ := (Bool.and_eq_true _ _).mp hc
    refine ⟨ha, hi, ?_⟩
    cases h0 : irqLevel b 0 <;> cases h1 : irqLevel b 1 <;> simp [assertedInputs, h0, h1] at ht <;> subst ht <;>
      simp [h0, h1]
  · cases ht

/-- HPL32 takes no line exactly where one of these is missing (R196). -/
theorem hplTakes_none {h : Harness} {b : Block} :
    hplTakes h (assertedInputs id b) = none ↔
      ¬ (hostActive h = true ∧ h.ien = true ∧ (irqLevel b 0 = true ∨ irqLevel b 1 = true)) := by
  unfold hplTakes
  cases hostActive h <;> cases h.ien <;> cases h0 : irqLevel b 0 <;> cases h1 : irqLevel b 1 <;>
    simp [assertedInputs, h0, h1]

/-- Entry goes to the handler, or records that the program names none (R196). -/
theorem hplEnter_cases (h : Harness) (t : TmrIdx) :
    (∃ entry, vectorOf h t = some entry ∧
      hplEnter h t = { h with epc := h.pc, epcValid := true, ien := false, pc := entry }) ∨
    (vectorOf h t = none ∧ hplEnter h t = { h with fault := some (.noVector t) }) := by
  unfold hplEnter
  cases hv : vectorOf h t with
  | none => exact .inr ⟨rfl, rfl⟩
  | some entry => exact .inl ⟨entry, rfl, rfl⟩

/-- A trap is taken as the host's own parameter says, or not at all (R219). -/
theorem takeTrap_cases {ι σ : Type} (p : HostTrap ι σ) (asserted : List ι) (h : σ) :
    (∃ i, p.takes h asserted = some i ∧ takeTrap p asserted h = p.enter h i) ∨
    (p.takes h asserted = none ∧ takeTrap p asserted h = h) := by
  unfold takeTrap
  cases ht : p.takes h asserted with
  | none => exact .inr ⟨rfl, rfl⟩
  | some i => exact .inl ⟨i, rfl, rfl⟩

/-- The HPL32 host enters a handler where R196 enables it, and otherwise the machine is as it was. -/
theorem takeInterrupt_cases (s : State) :
    (∃ t, hplTakes s.host (assertedInputs id s.block) = some t ∧
      takeInterrupt s = { s with host := hplEnter s.host t }) ∨
    (hplTakes s.host (assertedInputs id s.block) = none ∧ takeInterrupt s = s) := by
  unfold takeInterrupt
  obtain ⟨t, ht, h⟩ | ⟨ht, h⟩ := takeTrap_cases hpl32Trap (assertedInputs id s.block) s.host
  · exact .inl ⟨t, ht, by rw [h]; rfl⟩
  · exact .inr ⟨ht, by rw [h]⟩

/-- RETI returns to the saved pc, or records that none is saved (R193). -/
theorem returnFromInterrupt_cases (s : State) :
    (s.host.epcValid = true ∧ returnFromInterrupt s =
        { s with host := { s.host with pc := s.host.epc, epcValid := false, ien := true } }) ∨
    (s.host.epcValid = false ∧
      returnFromInterrupt s = recordFault (.retiOutsideHandler s.host.pc) s) := by
  cases h : s.host.epcValid
  · exact .inr ⟨rfl, by simp [returnFromInterrupt, hpl32Trap, hplLeave, recordFault, h]⟩
  · exact .inl ⟨rfl, by simp [returnFromInterrupt, hpl32Trap, hplLeave, h]⟩

/-- A word access to an offset reads a register of the map or ends in ALIGN or UNMAPPED, never both (R72). -/
theorem checkOffset_cases (off : Offset) :
    (∃ r, checkOffset off = .ok r ∧ off.extractLsb' 0 2 = 0#2 ∧ regAt off = some r) ∨
    (checkOffset off = .error .align ∧ off.extractLsb' 0 2 ≠ 0#2) ∨
    (checkOffset off = .error .unmapped ∧ off.extractLsb' 0 2 = 0#2 ∧ regAt off = none) := by
  unfold checkOffset
  by_cases ha : off.extractLsb' 0 2 = 0#2
  · cases hr : regAt off with
    | none => exact .inr (.inr ⟨by simp [ha], ha, rfl⟩)
    | some r => exact .inl ⟨r, by simp [ha], ha, rfl⟩
  · exact .inr (.inl ⟨by simp [ha], ha⟩)

/-- BusRead follows the decoding of its offset. -/
theorem busRead_cases (off : Offset) (b : Block) :
    (∃ r, checkOffset off = .ok r ∧ busRead off b = .ok (readRegister b r)) ∨
    (∃ k, checkOffset off = .error k ∧ busRead off b = .error k) := by
  unfold busRead
  cases h : checkOffset off with
  | ok r => exact .inl ⟨r, rfl, rfl⟩
  | error k => exact .inr ⟨k, rfl, rfl⟩

/-- BusWrite follows the decoding of its offset. -/
theorem busWrite_cases (off : Offset) (data : Word) (s : State) :
    (∃ r, checkOffset off = .ok r ∧ busWrite off data s = .ok (putWrite data r s)) ∨
    (∃ k, checkOffset off = .error k ∧ busWrite off data s = .error k) := by
  unfold busWrite
  cases h : checkOffset off with
  | ok r => exact .inl ⟨r, rfl, rfl⟩
  | error k => exact .inr ⟨k, rfl, rfl⟩

/-- A write reaches the block as it completes, or joins the writes that wait (R60, R62). -/
theorem putWrite_cases (data : Word) (r : Reg) (s : State) :
    (s.bus = .direct ∧ putWrite data r s = { s with block := writeRegister data s.block r }) ∨
    (∃ ws fenced, s.bus = .posting ws fenced ∧
      putWrite data r s = { s with bus := .posting (ws ++ [{ reg := r, data := data }]) fenced }) := by
  unfold putWrite
  cases h : s.bus with
  | direct => exact .inl ⟨rfl, by simp [setBlock, h]⟩
  | posting ws fenced => exact .inr ⟨ws, fenced, rfl, rfl⟩

/-- A delivery is the oldest waiting write, or nothing where none waits (R62). -/
theorem deliverOldest_cases (s : State) :
    (∃ w ws fenced, s.bus = .posting (w :: ws) fenced ∧ deliverOldest s =
      { s with block := writeRegister w.data s.block w.reg, bus := .posting ws (fenced && !ws.isEmpty) }) ∨
    (waitingWrites s.bus = [] ∧ deliverOldest s = s) := by
  unfold deliverOldest
  cases h : s.bus with
  | direct => exact .inr ⟨rfl, rfl⟩
  | posting ws fenced =>
    cases ws with
    | nil => exact .inr ⟨rfl, rfl⟩
    | cons w ws => exact .inl ⟨w, ws, fenced, rfl, rfl⟩

@[simp] theorem blockWrite_writeInstr (data : Word) (r : Reg) : blockWrite (writeInstr data r) = some (r, data) := by
  cases r <;> rfl

@[simp] theorem blockWrite_readInstr (r : Reg) : blockWrite (readInstr r) = none := by cases r <;> rfl

@[simp] theorem instrWrite_writeInstr (h : Harness) (data : Word) (r : Reg) :
    instrWrite h (writeInstr data r) = some (r, data) := by cases r <;> rfl

/-- An accepted read on the host's bus is its operation, or has no step while a write waits (R60, R62). -/
theorem busAccess_readInstr (r : Reg) (s : State) :
    (waitingWrites s.bus = [] ∧ busAccess (readInstr r) s = exec (readInstr r) s) ∨
    (waitingWrites s.bus ≠ [] ∧ busAccess (readInstr r) s = .next s) := by
  unfold busAccess
  rw [blockWrite_readInstr]
  cases h : waitingWrites s.bus with
  | nil => exact .inl ⟨rfl, by simp [h]⟩
  | cons w ws => exact .inr ⟨by simp, by simp [h]⟩

/-- An accepted write on the host's bus completes; it has reached the block or waits (R60, R62). -/
theorem busAccess_writeInstr (data : Word) (r : Reg) (s : State) :
    busAccess (writeInstr data r) s = .next { putWrite data r s with resp := some .writeDone } := by
  unfold busAccess
  rw [blockWrite_writeInstr]
  cases h : s.bus with
  | posting ws fenced => simp
  | direct =>
    simp only [putWrite, h]
    cases r <;> rfl

/-- A read operation by descriptor answers with its register's read rule. -/
theorem exec_readInstr (r : Reg) (s : State) :
    exec (readInstr r) s = .next (answerRead (readRegister s.block r) s) := by cases r <;> rfl

/-- A write operation by descriptor leaves the block its register's write rule gives. -/
theorem exec_writeInstr (r : Reg) (data : Word) (s : State) :
    exec (writeInstr data r) s = .next (answerWrite (writeRegister data s.block r) s) := by cases r <;> rfl

end Sys2Proof.Machine
end

