-- ==== Sys2Proof/Laws/PerInstr.lean ====
section
/-! SUPPORT. Per instruction: its encoding agrees with its row of spec/opcode_table.json, match and mask copied from the
table. -/

namespace Sys2Proof.Laws.TableRow

/-- The bits the table numbers: a descriptor, or an HPL32 word. -/
def bitsOf : Code → Word
  | .access d _ => d.setWidth 32
  | .word w => w

/-- The row's mask and match. The row ILLEGAL covers OP 0xC to 0xF; a word that is illegal for a non-zero MBZ field
matches no row, and stands here with the empty mask. -/
def rowOf : Instr → Word × Word
  | .rdSeqTrig => (0xFFFF#32, 0x2000#32)
  | .wrSeqTrig _ => (0xFFFF#32, 0xA000#32)
  | .rdSeqStat => (0xFFFF#32, 0x2004#32)
  | .wrSeqStat _ => (0xFFFF#32, 0xA004#32)
  | .rdSeqClr => (0xFFFF#32, 0x2008#32)
  | .wrSeqClr _ => (0xFFFF#32, 0xA008#32)
  | .rdSeqRes0 => (0xFFFF#32, 0x2010#32)
  | .wrSeqRes0 _ => (0xFFFF#32, 0xA010#32)
  | .rdSeqRes1 => (0xFFFF#32, 0x2014#32)
  | .wrSeqRes1 _ => (0xFFFF#32, 0xA014#32)
  | .rdSeqRes2 => (0xFFFF#32, 0x2018#32)
  | .wrSeqRes2 _ => (0xFFFF#32, 0xA018#32)
  | .rdTmrCtl => (0xFFFF#32, 0x2020#32)
  | .wrTmrCtl _ => (0xFFFF#32, 0xA020#32)
  | .rdTmrStat => (0xFFFF#32, 0x2024#32)
  | .wrTmrStat _ => (0xFFFF#32, 0xA024#32)
  | .rdTmrClr => (0xFFFF#32, 0x2028#32)
  | .wrTmrClr _ => (0xFFFF#32, 0xA028#32)
  | .rdTmrLoad0 => (0xFFFF#32, 0x2030#32)
  | .wrTmrLoad0 _ => (0xFFFF#32, 0xA030#32)
  | .rdTmrLoad1 => (0xFFFF#32, 0x2034#32)
  | .wrTmrLoad1 _ => (0xFFFF#32, 0xA034#32)
  | .rdTmrVal0 => (0xFFFF#32, 0x2038#32)
  | .wrTmrVal0 _ => (0xFFFF#32, 0xA038#32)
  | .rdTmrVal1 => (0xFFFF#32, 0x203C#32)
  | .wrTmrVal1 _ => (0xFFFF#32, 0xA03C#32)
  | .rdTcCode => (0xFFFF#32, 0x2040#32)
  | .wrTcCode _ => (0xFFFF#32, 0xA040#32)
  | .rdTcCel => (0xFFFF#32, 0x2044#32)
  | .wrTcCel _ => (0xFFFF#32, 0xA044#32)
  | .rdTcFah => (0xFFFF#32, 0x2048#32)
  | .wrTcFah _ => (0xFFFF#32, 0xA048#32)
  | .halt => (0xFFFFFFFF#32, 0x00000000#32)
  | .rd _ _ => (0xF1FFF000#32, 0x10000000#32)
  | .wr _ _ => (0xFE3FF000#32, 0x20000000#32)
  | .li _ _ => (0xF1C00000#32, 0x30000000#32)
  | .andi _ _ _ => (0xF0000000#32, 0x40000000#32)
  | .addi _ _ _ => (0xF0000000#32, 0x50000000#32)
  | .bz _ _ => (0xFE000000#32, 0x60000000#32)
  | .bnz _ _ => (0xFE000000#32, 0x70000000#32)
  | .j _ => (0xFFC00000#32, 0x80000000#32)
  | .ei => (0xFFFFFFFF#32, 0x90000000#32)
  | .di => (0xFFFFFFFF#32, 0xA0000000#32)
  | .reti => (0xFFFFFFFF#32, 0xB0000000#32)
  | .illegal word => if 0xC#4 ≤ hplOp word then (0xC0000000#32, 0xC0000000#32) else (0x00000000#32, 0x00000000#32)

/-- The encoding has the row's fixed bits. -/
def Statement (i : Instr) : Prop := bitsOf (encode i) &&& (rowOf i).1 = (rowOf i).2

/-- A word of fields under a mask is checked bit by bit. -/
theorem word_and {op : BitVec 4} {rd rs : BitVec 3} {imm : Imm} {mask value : Word}
    (h : ∀ k, k < 32 → ((if k < 22 then imm.getLsbD k else if k < 25 then rs.getLsbD (k - 22)
      else if k < 28 then rd.getLsbD (k - 25) else op.getLsbD (k - 28)) && mask.getLsbD k) = value.getLsbD k) :
    hplWord op rd rs imm &&& mask = value := by
  apply BitVec.eq_of_getLsbD_eq
  intro k hk
  rw [BitVec.getLsbD_and, getLsbD_hplWord]
  exact h k hk

theorem rdSeqTrig : Statement .rdSeqTrig := rfl
theorem wrSeqTrig (data : Word) : Statement (.wrSeqTrig data) := by
  simp only [Statement, encode, writeCode, bitsOf, rowOf]; decide
theorem rdSeqStat : Statement .rdSeqStat := rfl
theorem wrSeqStat (data : Word) : Statement (.wrSeqStat data) := by
  simp only [Statement, encode, writeCode, bitsOf, rowOf]; decide
theorem rdSeqClr : Statement .rdSeqClr := rfl
theorem wrSeqClr (data : Word) : Statement (.wrSeqClr data) := by
  simp only [Statement, encode, writeCode, bitsOf, rowOf]; decide
theorem rdSeqRes0 : Statement .rdSeqRes0 := rfl
theorem wrSeqRes0 (data : Word) : Statement (.wrSeqRes0 data) := by
  simp only [Statement, encode, writeCode, bitsOf, rowOf]; decide
theorem rdSeqRes1 : Statement .rdSeqRes1 := rfl
theorem wrSeqRes1 (data : Word) : Statement (.wrSeqRes1 data) := by
  simp only [Statement, encode, writeCode, bitsOf, rowOf]; decide
theorem rdSeqRes2 : Statement .rdSeqRes2 := rfl
theorem wrSeqRes2 (data : Word) : Statement (.wrSeqRes2 data) := by
  simp only [Statement, encode, writeCode, bitsOf, rowOf]; decide
theorem rdTmrCtl : Statement .rdTmrCtl := rfl
theorem wrTmrCtl (data : Word) : Statement (.wrTmrCtl data) := by
  simp only [Statement, encode, writeCode, bitsOf, rowOf]; decide
theorem rdTmrStat : Statement .rdTmrStat := rfl
theorem wrTmrStat (data : Word) : Statement (.wrTmrStat data) := by
  simp only [Statement, encode, writeCode, bitsOf, rowOf]; decide
theorem rdTmrClr : Statement .rdTmrClr := rfl
theorem wrTmrClr (data : Word) : Statement (.wrTmrClr data) := by
  simp only [Statement, encode, writeCode, bitsOf, rowOf]; decide
theorem rdTmrLoad0 : Statement .rdTmrLoad0 := rfl
theorem wrTmrLoad0 (data : Word) : Statement (.wrTmrLoad0 data) := by
  simp only [Statement, encode, writeCode, bitsOf, rowOf]; decide
theorem rdTmrLoad1 : Statement .rdTmrLoad1 := rfl
theorem wrTmrLoad1 (data : Word) : Statement (.wrTmrLoad1 data) := by
  simp only [Statement, encode, writeCode, bitsOf, rowOf]; decide
theorem rdTmrVal0 : Statement .rdTmrVal0 := rfl
theorem wrTmrVal0 (data : Word) : Statement (.wrTmrVal0 data) := by
  simp only [Statement, encode, writeCode, bitsOf, rowOf]; decide
theorem rdTmrVal1 : Statement .rdTmrVal1 := rfl
theorem wrTmrVal1 (data : Word) : Statement (.wrTmrVal1 data) := by
  simp only [Statement, encode, writeCode, bitsOf, rowOf]; decide
theorem rdTcCode : Statement .rdTcCode := rfl
theorem wrTcCode (data : Word) : Statement (.wrTcCode data) := by
  simp only [Statement, encode, writeCode, bitsOf, rowOf]; decide
theorem rdTcCel : Statement .rdTcCel := rfl
theorem wrTcCel (data : Word) : Statement (.wrTcCel data) := by
  simp only [Statement, encode, writeCode, bitsOf, rowOf]; decide
theorem rdTcFah : Statement .rdTcFah := rfl
theorem wrTcFah (data : Word) : Statement (.wrTcFah data) := by
  simp only [Statement, encode, writeCode, bitsOf, rowOf]; decide
theorem halt : Statement .halt := rfl

theorem rd (rd : RegIdx) (off : Offset) : Statement (.rd rd off) := by
  refine word_and fun k hk => ?_
  rw [getLsbD_immOfOffset]
  interval_cases k <;> simp [rowOf]

theorem wr (off : Offset) (rs : RegIdx) : Statement (.wr off rs) := by
  refine word_and fun k hk => ?_
  rw [getLsbD_immOfOffset]
  interval_cases k <;> simp [rowOf]

theorem li (rd : RegIdx) (imm : Imm) : Statement (.li rd imm) := by
  refine word_and fun k hk => ?_
  interval_cases k <;> simp [rowOf]

theorem andi (rd : RegIdx) (rs : RegIdx) (imm : Imm) : Statement (.andi rd rs imm) := by
  refine word_and fun k hk => ?_
  interval_cases k <;> simp [rowOf]

theorem addi (rd : RegIdx) (rs : RegIdx) (imm : Imm) : Statement (.addi rd rs imm) := by
  refine word_and fun k hk => ?_
  interval_cases k <;> simp [rowOf]

theorem bz (rs : RegIdx) (target : Imm) : Statement (.bz rs target) := by
  refine word_and fun k hk => ?_
  interval_cases k <;> simp [rowOf]

theorem bnz (rs : RegIdx) (target : Imm) : Statement (.bnz rs target) := by
  refine word_and fun k hk => ?_
  interval_cases k <;> simp [rowOf]

theorem j (target : Imm) : Statement (.j target) := by
  refine word_and fun k hk => ?_
  interval_cases k <;> simp [rowOf]

theorem ei : Statement .ei := rfl
theorem di : Statement .di := rfl
theorem reti : Statement .reti := rfl
theorem illegal (word : Word) : Statement (.illegal word) := by
  unfold Statement
  simp only [encode, bitsOf, rowOf]
  split
  · rename_i h
    conv_lhs => rw [← hplWord_fields word]
    refine word_and fun k hk => ?_
    have h3 : (hplOp word).getLsbD 3 = true := by revert h; generalize hplOp word = op; revert op; decide
    have h2 : (hplOp word).getLsbD 2 = true := by revert h; generalize hplOp word = op; revert op; decide
    interval_cases k <;> simp_all
  · simp

end Sys2Proof.Laws.TableRow
end

