-- ==== Sys2Proof/Laws/Step.lean ====
section
/-! SUPPORT. What one step can do: the step is the chosen agent's step, and each agent's step in its cases. -/

namespace Sys2Proof.Machine

/-- Where the host does not cache the window a step is the chosen agent's step (R9). -/
theorem step_of_uncachedHost {s : State} (h : uncachedHost s) : step s = runEvent (chosenEvent s) (afterChoice s) := by
  rw [uncachedHost] at h
  simp [step, h]

/-- A step that answers a next state is the chosen agent's step, and the host does not cache the window. -/
theorem step_next {s t : State} (h : step s = .next t) :
    uncachedHost s ∧ runEvent (chosenEvent s) (afterChoice s) = .next t := by
  unfold step at h
  split at h
  · cases h
  · rename_i h1
    exact ⟨by simpa [uncachedHost] using h1, h⟩

/-- A decoded access is a read or a write of a register (R73). -/
theorem decodeAccess_ok {d : Desc} {data : Word} {i : Instr} (h : decodeAccess d data = .ok i) :
    ∃ r, checkOffset (descOffset d) = .ok r ∧ i = if descWrite d then writeInstr data r else readInstr r := by
  unfold decodeAccess at h
  split at h
  · cases h
  · split at h
    · cases h
    · split at h
      · cases h
      · cases hr : checkOffset (descOffset d) with
        | error k => rw [hr] at h; cases h
        | ok r => rw [hr] at h; exact ⟨r, rfl, (Except.ok.inj h).symm⟩

/-- An access that answers a next state reads a register, waits for the writes before it, completes a write, or answers a
bus error (R60, R62, R72, R210). -/
theorem hostAccess_next {d : Desc} {data : Word} {s t : State} (h : hostAccess d data s = .next t) :
    (∃ r, decodeAccess d data = .ok (readInstr r) ∧
      ((waitingWrites s.bus = [] ∧ t = answerRead (readRegister s.block r) s) ∨ (waitingWrites s.bus ≠ [] ∧ t = s))) ∨
    (∃ r v, decodeAccess d data = .ok (writeInstr v r) ∧ t = { putWrite v r s with resp := some .writeDone }) ∨
    (∃ k, decodeAccess d data = .error (.busError k) ∧ t = answerBusError (descOffset d) k s) := by
  unfold hostAccess at h
  change (match decodeAccess d data with
    | .ok i => busAccess i s
    | .error (.busError k) => .next (answerBusError (descOffset d) k s)
    | .error .notBusAccess => .refused (.notABusAccess d)) = _ at h
  cases hd : decodeAccess d data with
  | ok i =>
    rw [hd] at h
    obtain ⟨r, _, hi⟩ := decodeAccess_ok hd
    split at hi <;> subst hi
    · have := Host.Outcome.next.inj ((busAccess_writeInstr data r s).symm.trans h)
      exact .inr (.inl ⟨r, data, rfl, this.symm⟩)
    · refine .inl ⟨r, rfl, ?_⟩
      obtain ⟨hw, hb⟩ | ⟨hw, hb⟩ := busAccess_readInstr r s
      · rw [exec_readInstr] at hb
        exact .inl ⟨hw, (Host.Outcome.next.inj (hb.symm.trans h)).symm⟩
      · exact .inr ⟨hw, (Host.Outcome.next.inj (hb.symm.trans h)).symm⟩
  | error e =>
    cases e with
    | notBusAccess => rw [hd] at h; cases h
    | busError k =>
      rw [hd] at h
      exact .inr (.inr ⟨k, rfl, (Host.Outcome.next.inj h).symm⟩)

/-- What an access of another bus master can be: a step that leaves the harness and the platform alone. -/
theorem hostAccess_host {d : Desc} {data : Word} {s t : State} (h : hostAccess d data s = .next t) :
    t.host = s.host := by
  obtain ⟨r, _, ⟨_, rfl⟩ | ⟨_, rfl⟩⟩ | ⟨r, v, _, rfl⟩ | ⟨k, _, rfl⟩ := hostAccess_next h <;> simp

/-- The block after an access of another bus master: only a write on a direct bus has reached it (R60, R62). -/
theorem hostAccess_block {d : Desc} {data : Word} {s t : State} (h : hostAccess d data s = .next t) :
    t.block = s.block ∨
    ∃ r v, s.bus = .direct ∧ decodeAccess d data = .ok (writeInstr v r) ∧ t.block = writeRegister v s.block r := by
  obtain ⟨r, _, ⟨_, rfl⟩ | ⟨_, rfl⟩⟩ | ⟨r, v, hd, rfl⟩ | ⟨k, _, rfl⟩ := hostAccess_next h
  · exact .inl rfl
  · exact .inl rfl
  · obtain ⟨hb, hp⟩ | ⟨ws, f, _, hp⟩ := putWrite_cases v r s
    · exact .inr ⟨r, v, hb, hd, by simp [hp]⟩
    · exact .inl (by simp [hp])
  · exact .inl rfl

/-- A request reaches the block as one access, or is outside the window (R50). -/
theorem runRequest_next {r : BusReq} {s t : State} (h : runRequest r s = .next t) :
    ∃ d data, hostAccess d data s = .next t := by
  cases r with
  | desc d data => exact ⟨d, data, h⟩
  | addr w x size addr data =>
    unfold runRequest at h
    dsimp only at h
    split at h
    · exact ⟨_, _, h⟩
    · cases h

/-- The Host's own step executes the fetched word, waits with an RD for the posted writes, records a pc out of range, or
does not exist (R60, R182). -/
theorem hostExec_cases (s : State) :
    (hostActive s.host = true ∧ ∃ w, fetchWord s.host = some w ∧
      (waitingWrites s.bus = [] ∨ readsWindow (decodeHpl w) = false) ∧ hostExec s = exec (decodeHpl w) s) ∨
    (hostActive s.host = true ∧ ∃ w, fetchWord s.host = some w ∧
      waitingWrites s.bus ≠ [] ∧ readsWindow (decodeHpl w) = true ∧ hostExec s = .next s) ∨
    (hostActive s.host = true ∧ fetchWord s.host = none ∧
      hostExec s = .next (recordFault (.pcOutOfRange s.host.pc) s)) ∨
    (hostActive s.host = false ∧ hostExec s = .next s) := by
  unfold hostExec
  cases ha : hostActive s.host
  · exact .inr (.inr (.inr ⟨rfl, by simp⟩))
  · cases hf : fetchWord s.host with
    | none => exact .inr (.inr (.inl ⟨rfl, rfl, by simp⟩))
    | some w =>
      cases hr : readsWindow (decodeHpl w)
      · exact .inl ⟨rfl, w, rfl, .inr hr, by simp [hr]⟩
      · cases hw : waitingWrites s.bus with
        | nil => exact .inl ⟨rfl, w, rfl, .inl rfl, by simp [hr]⟩
        | cons p ps => exact .inr (.inl ⟨rfl, w, rfl, by simp, hr, by simp [hr]⟩)

/-- A step of the HPL32 host, or nothing where another host drives the block (R227). -/
theorem hplStep_cases (k : State → Result) (s : State) :
    (s.plat.host = .hpl32 ∧ hplStep k s = k s) ∨ (s.plat.host = .busMaster ∧ hplStep k s = .next s) := by
  unfold hplStep
  cases s.plat.host
  · exact .inl ⟨rfl, rfl⟩
  · exact .inr ⟨rfl, rfl⟩

/-- A step of a host other than HPL32, or nothing where the host is HPL32 or its barrier holds it back (R62, R227). -/
theorem masterStep_cases (k : State → Result) (s : State) :
    (s.plat.host = .busMaster ∧ hostFenced s.bus = false ∧ masterStep k s = k s) ∨
    ((s.plat.host = .hpl32 ∨ hostFenced s.bus = true) ∧ masterStep k s = .next s) := by
  unfold masterStep
  cases s.plat.host
  · exact .inr ⟨.inl rfl, rfl⟩
  · cases hf : hostFenced s.bus
    · exact .inl ⟨rfl, rfl, by simp⟩
    · exact .inr ⟨.inr rfl, by simp⟩

/-- The Converter's step completes a busy sequence, or does not exist (R112). -/
theorem convDone_cases (n : SeqIdx) (s : State) :
    ((seqOf s.block n).busy = true ∧ convDone n s =
      { s with
        block := setSeq s.block (completeSeq (Config.ain (Config.src n) s.draws) (seqOf s.block n)) n
        draws := s.draws + 1 }) ∨
    ((seqOf s.block n).busy = false ∧ convDone n s = s) := by
  unfold convDone
  cases h : (seqOf s.block n).busy
  · exact .inr ⟨rfl, by simp⟩
  · exact .inl ⟨rfl, by simp⟩

/-- The Clock's step ticks an enabled timer, or does not exist (R140). -/
theorem clockTick_cases (t : TmrIdx) (s : State) :
    ((tmrOf s.block t).en = true ∧
      clockTick t s = setBlock (setTmr s.block (tickTmr (tmrOf s.block t)) t) s) ∨
    ((tmrOf s.block t).en = false ∧ clockTick t s = s) := by
  unfold clockTick
  cases h : (tmrOf s.block t).en
  · exact .inr ⟨rfl, by simp⟩
  · exact .inl ⟨rfl, by simp⟩

/-- Interrupt entry: HPL32's own where R196 enables it, another host's in its own context, or nothing (R182, R219). -/
theorem hostIrq_cases (s : State) :
    (s.plat.host = .hpl32 ∧ ∃ t, hplTakes s.host (assertedInputs id s.block) = some t ∧
      hostIrq s = .next { s with host := hplEnter s.host t }) ∨
    (s.plat.host = .hpl32 ∧ hplTakes s.host (assertedInputs id s.block) = none ∧ hostIrq s = .next s) ∨
    (s.plat.host = .busMaster ∧ hostFenced s.bus = false ∧ hostIrq s = .next (takeHostTrap s)) ∨
    (s.plat.host = .busMaster ∧ hostFenced s.bus = true ∧ hostIrq s = .next s) := by
  unfold hostIrq
  cases s.plat.host
  · obtain ⟨t, ht, h⟩ | ⟨ht, h⟩ := takeInterrupt_cases s
    · exact .inl ⟨rfl, t, ht, by simp [h]⟩
    · exact .inr (.inl ⟨rfl, ht, by simp [h]⟩)
  · cases hf : hostFenced s.bus
    · exact .inr (.inr (.inl ⟨rfl, rfl, by simp⟩))
    · exact .inr (.inr (.inr ⟨rfl, rfl, by simp⟩))

/-! ## What one instruction can do -/

/-- What withOperand leaves alone: whatever both its continuation and recording a fault leave alone. -/
theorem withOperand_keeps {α : Type} (f : State → α) {rs : RegIdx} {k : Word → State} {s : State}
    (hk : ∀ v, f (k v) = f s) (hf : ∀ e, f (recordFault e s) = f s) : f (withOperand rs k s) = f s := by
  obtain ⟨_, h⟩ | ⟨_, h⟩ := withOperand_cases rs k s
  · rw [h, hk]
  · rw [h, hf]

/-- WR makes its one register write on a direct bus, or leaves the block as it is (R184, R62). -/
theorem execWr_block (off : Offset) (rs : RegIdx) {s t : State} (h : execWr off rs s = .next t) :
    t.block = s.block ∨
    (s.bus = .direct ∧
      ∃ r data, instrWrite s.host (.wr off rs) = some (r, data) ∧ t.block = writeRegister data s.block r) := by
  have ht := (Host.Outcome.next.inj h).symm
  obtain ⟨_, hr⟩ | ⟨_, hr⟩ := readOperand_cases s.host rs
  · obtain ⟨r, hc, hb⟩ | ⟨k, hc, hb⟩ := busWrite_cases off (regOf s.host rs).val s
    · obtain ⟨hd, hp⟩ | ⟨ws, f, _, hp⟩ := putWrite_cases (regOf s.host rs).val r s
      · refine .inr ⟨hd, r, (regOf s.host rs).val, by simp [instrWrite, hr, hc], ?_⟩
        rw [ht]
        simp [withOperand, hr, hb, hp]
      · refine .inl ?_
        rw [ht]
        simp [withOperand, hr, hb, hp]
    · refine .inl ?_
      rw [ht]
      simp [withOperand, hr, hb]
  · refine .inl ?_
    rw [ht]
    simp [withOperand, hr]

/-- Every instruction answers a next state, whatever the state: a harness fault is recorded, not a stop (R197, R211). -/
theorem exec_answers_next (i : Instr) (s : State) : ∃ t, exec i s = .next t := by
  cases i
  case rd rd off =>
    obtain ⟨r, _, hb⟩ | ⟨k, _, hb⟩ := busRead_cases off s.block
    · exact ⟨advancePc (writeReg rd (readRegister s.block r) s), by simp [exec, execRd, hb]⟩
    · exact ⟨recordBusError off k s, by simp [exec, execRd, hb]⟩
  all_goals exact ⟨_, rfl⟩

/-- An instruction leaves the block as it is, or makes its one register write; WR does so on a direct bus only. -/
theorem exec_block {i : Instr} {s t : State} (h : exec i s = .next t) :
    t.block = s.block ∨
    ((s.bus = .direct ∨ blockWrite i ≠ none) ∧
      ∃ r data, instrWrite s.host i = some (r, data) ∧ t.block = writeRegister data s.block r) := by
  cases i
  case rd rd off =>
    change execRd rd off s = _ at h
    obtain ⟨r, _, hb⟩ | ⟨k, _, hb⟩ := busRead_cases off s.block <;>
      · simp only [execRd, hb, Host.Outcome.next.injEq] at h
        exact .inl (by rw [← h]; rfl)
  case wr off rs => exact (execWr_block off rs h).imp_right fun ⟨hd, hw⟩ => ⟨.inl hd, hw⟩
  case reti =>
    refine .inl ?_
    rw [← Host.Outcome.next.inj h]
    rfl
  case bz rs target =>
    refine .inl ?_
    rw [← Host.Outcome.next.inj h]
    exact withOperand_keeps State.block (fun v => by split <;> rfl) fun _ => rfl
  case bnz rs target =>
    refine .inl ?_
    rw [← Host.Outcome.next.inj h]
    exact withOperand_keeps State.block (fun v => by split <;> rfl) fun _ => rfl
  all_goals
    first
      | exact .inl (by rw [← Host.Outcome.next.inj h]; rfl)
      | exact .inr ⟨.inr (by simp [blockWrite]), _, _, rfl, by rw [← Host.Outcome.next.inj h]; rfl⟩
      | (refine .inl ?_
         rw [← Host.Outcome.next.inj h]
         exact withOperand_keeps State.block (fun _ => rfl) fun _ => rfl)

/-- No HPL32 word is a block operation by descriptor (R78 to R81). -/
@[simp] theorem blockWrite_decodeHpl (w : Word) : blockWrite (decodeHpl w) = none := by
  unfold decodeHpl
  dsimp only
  split <;> first | rfl | (split <;> rfl)

/-- What no instruction changes: which host it is, the model's own fields, the program and its handler entries. -/
theorem exec_keeps {α : Type} (f : State → α)
    (hf : ∀ (s : State) (b : Block) (bus : HostBus) (r : Option BusResp) (regs : Vector HReg 8) (pc epc : Nat)
      (ien v halted : Bool) (fault : Option HarnessFault),
      f { s with
          block := b
          bus := bus
          resp := r
          host := { s.host with
            regs := regs, pc := pc, epc := epc, ien := ien, epcValid := v, halted := halted, fault := fault } } = f s)
    {i : Instr} {s t : State} (h : exec i s = .next t) : f t = f s := by
  have hr : ∀ e, f (recordFault e s) = f s := fun e => hf s _ _ _ _ _ _ _ _ _ (some e)
  have hb : ∀ off k, f (recordBusError off k s) = f s := fun off k => hf s _ _ _ _ _ _ _ _ _ _
  cases i
  case rd rd off =>
    change execRd rd off s = _ at h
    obtain ⟨r, _, hc⟩ | ⟨k, _, hc⟩ := busRead_cases off s.block
    · simp only [execRd, hc, Host.Outcome.next.injEq] at h
      rw [← h]
      exact hf s _ _ _ _ _ _ _ _ _ _
    · simp only [execRd, hc, Host.Outcome.next.injEq] at h
      rw [← h]
      exact hb _ _
  case reti =>
    rw [← Host.Outcome.next.inj h]
    obtain ⟨_, h1⟩ | ⟨_, h1⟩ := returnFromInterrupt_cases s
    · rw [h1]
      exact hf s _ _ _ _ _ _ _ _ _ _
    · rw [h1]
      exact hr _
  case wr off rs =>
    rw [← Host.Outcome.next.inj h]
    refine withOperand_keeps f (fun v => ?_) hr
    obtain ⟨r, _, hc⟩ | ⟨k, _, hc⟩ := busWrite_cases off v s
    · rw [hc]
      obtain ⟨_, hp⟩ | ⟨ws, e, _, hp⟩ := putWrite_cases v r s <;> dsimp only <;> rw [hp] <;>
        exact hf s _ _ _ _ _ _ _ _ _ _
    · rw [hc]
      exact hb _ _
  case bz rs target =>
    rw [← Host.Outcome.next.inj h]
    exact withOperand_keeps f (fun v => by split <;> exact hf s _ _ _ _ _ _ _ _ _ _) hr
  case bnz rs target =>
    rw [← Host.Outcome.next.inj h]
    exact withOperand_keeps f (fun v => by split <;> exact hf s _ _ _ _ _ _ _ _ _ _) hr
  all_goals
    rw [← Host.Outcome.next.inj h]
    first
      | exact hf s _ _ _ _ _ _ _ _ _ _
      | exact withOperand_keeps f (fun _ => hf s _ _ _ _ _ _ _ _ _ _) hr

/-! ## What one step can do to the block -/

/-- A step leaves the block as it is, or is one of its four writers: a register write that reaches it, a completion of a
busy sequence, a tick of an enabled timer, RESET. -/
theorem step_block {s t : State} (h : step s = .next t) :
    t.block = s.block ∨
    (∃ r data, stepWrite s = some (r, data) ∧ t.block = writeRegister data s.block r) ∨
    (∃ n, chosenEvent s = .convDone n ∧ (seqOf s.block n).busy = true ∧
      t.block = setSeq s.block (completeSeq (drawnCode s n) (seqOf s.block n)) n) ∨
    (∃ u, chosenEvent s = .tick u ∧ (tmrOf s.block u).en = true ∧
      t.block = setTmr s.block (tickTmr (tmrOf s.block u)) u) ∨
    (chosenEvent s = .reset ∧
      t.block = resetBlock (Config.resetRes (afterChoice s).draws) (Config.resetLoad (afterChoice s).draws)
        (Config.resetVal (afterChoice s).draws)) := by
  obtain ⟨_, h⟩ := step_next h
  have hs : t = afterChoice s → t.block = s.block := fun e => by rw [e, afterChoice_block]
  cases he : chosenEvent s with
  | reset =>
    rw [he] at h
    rw [← Host.Outcome.next.inj h]
    exact .inr (.inr (.inr (.inr ⟨rfl, rfl⟩)))
  | convDone n =>
    rw [he] at h
    rw [← Host.Outcome.next.inj h]
    obtain ⟨hb, h1⟩ | ⟨_, h1⟩ := convDone_cases n (afterChoice s)
    · rw [h1]
      rw [afterChoice_block] at hb
      exact .inr (.inr (.inl ⟨n, rfl, hb, by simp [drawnCode]⟩))
    · rw [h1]
      exact .inl (afterChoice_block s)
  | tick u =>
    rw [he] at h
    rw [← Host.Outcome.next.inj h]
    obtain ⟨hb, h1⟩ | ⟨_, h1⟩ := clockTick_cases u (afterChoice s)
    · rw [h1]
      rw [afterChoice_block] at hb
      exact .inr (.inr (.inr (.inl ⟨u, rfl, hb, by simp⟩)))
    · rw [h1]
      exact .inl (afterChoice_block s)
  | deliver =>
    rw [he] at h
    rw [← Host.Outcome.next.inj h]
    obtain ⟨w, ws, f, hb, h1⟩ | ⟨_, h1⟩ := deliverOldest_cases (afterChoice s)
    · rw [h1]
      rw [afterChoice_bus] at hb
      exact .inr (.inl ⟨w.reg, w.data, by simp [stepWrite, he, hb], by simp⟩)
    · rw [h1]
      exact .inl (afterChoice_block s)
  | hostIrq =>
    rw [he] at h
    change hostIrq (afterChoice s) = _ at h
    obtain ⟨_, u, _, h1⟩ | ⟨_, _, h1⟩ | ⟨_, _, h1⟩ | ⟨_, _, h1⟩ := hostIrq_cases (afterChoice s) <;>
      · rw [h1] at h
        rw [← Host.Outcome.next.inj h]
        exact .inl (afterChoice_block s)
  | hostReturn =>
    rw [he] at h
    simp only [runEvent] at h
    obtain ⟨_, _, h1⟩ | ⟨_, h1⟩ := masterStep_cases (fun u => .next (returnHostTrap u)) (afterChoice s) <;>
      · rw [h1] at h
        rw [← Host.Outcome.next.inj h]
        exact .inl (afterChoice_block s)
  | hostBarrier =>
    rw [he] at h
    simp only [runEvent] at h
    obtain ⟨_, _, h1⟩ | ⟨_, h1⟩ :=
        masterStep_cases (fun u => .next { u with bus := raiseFence u.bus }) (afterChoice s) <;>
      · rw [h1] at h
        rw [← Host.Outcome.next.inj h]
        exact .inl (afterChoice_block s)
  | hostExec =>
    rw [he] at h
    change hplStep hostExec (afterChoice s) = _ at h
    obtain ⟨hk, h0⟩ | ⟨_, h0⟩ := hplStep_cases hostExec (afterChoice s)
    · rw [h0] at h
      obtain ⟨ha, w, hf, _, h1⟩ | ⟨_, w, _, _, _, h1⟩ | ⟨_, _, h1⟩ | ⟨_, h1⟩ := hostExec_cases (afterChoice s)
      · rw [h1] at h
        rw [afterChoice_host] at ha hf
        rw [afterChoice_plat] at hk
        obtain h2 | ⟨hd, r, data, hw, h2⟩ := exec_block h
        · exact .inl (by rw [h2, afterChoice_block])
        · rw [afterChoice_host] at hw
          rw [afterChoice_bus] at hd
          have hd : s.bus = .direct := hd.resolve_right fun hn => hn (blockWrite_decodeHpl w)
          refine .inr (.inl ⟨r, data, ?_, by rw [h2, afterChoice_block]⟩)
          simp [stepWrite, hd, stepInstr, he, eventInstr, hk, ha, hf, hw]
      all_goals
        rw [h1] at h
        rw [← Host.Outcome.next.inj h]
        exact .inl (afterChoice_block s)
    · rw [h0] at h
      exact .inl (hs (Host.Outcome.next.inj h).symm)
  | access q =>
    rw [he] at h
    change masterStep _ (afterChoice s) = _ at h
    obtain ⟨hk, hu, h0⟩ | ⟨_, h0⟩ := masterStep_cases (runRequest q) (afterChoice s)
    · rw [h0] at h
      rw [afterChoice_plat] at hk
      rw [afterChoice_bus] at hu
      have key : ∀ d data, hostAccess d data (afterChoice s) = .next t →
          stepInstr s = (decodeAccess d data).toOption →
          t.block = s.block ∨ ∃ r data, stepWrite s = some (r, data) ∧ t.block = writeRegister data s.block r := by
        intro d data h hi
        obtain h2 | ⟨r, v, hd, hw, h2⟩ := hostAccess_block h
        · exact .inl (by rw [h2, afterChoice_block])
        · rw [afterChoice_bus] at hd
          rw [afterChoice_block] at h2
          exact .inr ⟨r, v, by
            simp [stepWrite, he, hd, hi, hw, Except.toOption, instrWrite_writeInstr], h2⟩
      have done : t.block = s.block ∨
          ∃ r data, stepWrite s = some (r, data) ∧ t.block = writeRegister data s.block r := by
        cases q with
        | desc d data => exact key d data h (by simp [stepInstr, he, eventInstr, hk, hu])
        | addr w x size addr data =>
          unfold runRequest at h
          dsimp only at h
          cases hw : windowOffset addr with
          | none => rw [hw] at h; cases h
          | some off => rw [hw] at h; exact key _ _ h (by simp [stepInstr, he, eventInstr, hw, hk, hu])
      exact done.elim .inl fun h => .inr (.inl h)
    · rw [h0] at h
      exact .inl (hs (Host.Outcome.next.inj h).symm)

/-! ## What one step can do to the harness -/

/-- A step leaves the harness as it is, or is one of the HPL32 Host's own: a fetched word executed, a pc past the
program's end, or an interrupt entry. -/
theorem step_host {s t : State} (h : step s = .next t) :
    t.host = s.host ∨
    (s.plat.host = .hpl32 ∧ hostActive s.host = true ∧
      ((chosenEvent s = .hostExec ∧
          ∃ w, fetchWord s.host = some w ∧ exec (decodeHpl w) (afterChoice s) = .next t) ∨
        (chosenEvent s = .hostExec ∧ fetchWord s.host = none ∧
          t = recordFault (.pcOutOfRange s.host.pc) (afterChoice s)) ∨
        (chosenEvent s = .hostIrq ∧ ∃ u, hplTakes s.host (assertedInputs id s.block) = some u ∧
          t = { afterChoice s with host := hplEnter s.host u }))) := by
  obtain ⟨_, h⟩ := step_next h
  cases he : chosenEvent s with
  | reset =>
    rw [he] at h
    rw [← Host.Outcome.next.inj h]
    exact .inl (afterChoice_host s)
  | convDone n =>
    rw [he] at h
    rw [← Host.Outcome.next.inj h]
    obtain ⟨_, h1⟩ | ⟨_, h1⟩ := convDone_cases n (afterChoice s) <;> rw [h1] <;> exact .inl (afterChoice_host s)
  | tick u =>
    rw [he] at h
    rw [← Host.Outcome.next.inj h]
    obtain ⟨_, h1⟩ | ⟨_, h1⟩ := clockTick_cases u (afterChoice s) <;> rw [h1] <;> exact .inl (afterChoice_host s)
  | deliver =>
    rw [he] at h
    rw [← Host.Outcome.next.inj h]
    exact .inl ((deliverOldest_host _).trans (afterChoice_host s))
  | hostIrq =>
    rw [he] at h
    change hostIrq (afterChoice s) = _ at h
    obtain ⟨hk, u, hu, h1⟩ | ⟨_, _, h1⟩ | ⟨_, _, h1⟩ | ⟨_, _, h1⟩ := hostIrq_cases (afterChoice s)
    · rw [h1] at h
      rw [afterChoice_plat] at hk
      rw [afterChoice_host, afterChoice_block] at hu
      refine .inr ⟨hk, (hplTakes_some hu).1, .inr (.inr ⟨rfl, u, hu, ?_⟩)⟩
      rw [← Host.Outcome.next.inj h, afterChoice_host]
    all_goals
      rw [h1] at h
      rw [← Host.Outcome.next.inj h]
      exact .inl (afterChoice_host s)
  | hostReturn =>
    rw [he] at h
    simp only [runEvent] at h
    obtain ⟨_, _, h1⟩ | ⟨_, h1⟩ := masterStep_cases (fun u => .next (returnHostTrap u)) (afterChoice s) <;>
      · rw [h1] at h
        rw [← Host.Outcome.next.inj h]
        exact .inl (afterChoice_host s)
  | hostBarrier =>
    rw [he] at h
    simp only [runEvent] at h
    obtain ⟨_, _, h1⟩ | ⟨_, h1⟩ :=
        masterStep_cases (fun u => .next { u with bus := raiseFence u.bus }) (afterChoice s) <;>
      · rw [h1] at h
        rw [← Host.Outcome.next.inj h]
        exact .inl (afterChoice_host s)
  | hostExec =>
    rw [he] at h
    change hplStep hostExec (afterChoice s) = _ at h
    obtain ⟨hk, h0⟩ | ⟨_, h0⟩ := hplStep_cases hostExec (afterChoice s)
    · rw [h0] at h
      rw [afterChoice_plat] at hk
      obtain ⟨ha, w, hf, _, h1⟩ | ⟨_, w, _, _, _, h1⟩ | ⟨ha, hf, h1⟩ | ⟨_, h1⟩ := hostExec_cases (afterChoice s)
      · rw [h1] at h
        rw [afterChoice_host] at ha hf
        exact .inr ⟨hk, ha, .inl ⟨rfl, w, hf, h⟩⟩
      · rw [h1] at h
        rw [← Host.Outcome.next.inj h]
        exact .inl (afterChoice_host s)
      · rw [h1] at h
        rw [afterChoice_host] at ha hf
        refine .inr ⟨hk, ha, .inr (.inl ⟨rfl, hf, ?_⟩)⟩
        rw [← Host.Outcome.next.inj h, afterChoice_host]
      · rw [h1] at h
        rw [← Host.Outcome.next.inj h]
        exact .inl (afterChoice_host s)
    · rw [h0] at h
      rw [← Host.Outcome.next.inj h]
      exact .inl (afterChoice_host s)
  | access q =>
    rw [he] at h
    change masterStep _ (afterChoice s) = _ at h
    refine .inl ?_
    obtain ⟨_, _, h0⟩ | ⟨_, h0⟩ := masterStep_cases (runRequest q) (afterChoice s)
    · rw [h0] at h
      obtain ⟨d, data, h⟩ := runRequest_next h
      rw [hostAccess_host h, afterChoice_host]
    · rw [h0] at h
      rw [← Host.Outcome.next.inj h, afterChoice_host]

end Sys2Proof.Machine
end

