-- ==== Sys2Proof/Tests/Slice0.lean ====
section
/-! SUPPORT. The model's own tests, few and small: the well-formedness smoke test, every encoding from a word written out
from R73 and R183 to R195, the vectors of 95_test_vectors.md (L1, L2), and one witness for the hypotheses of each
statement that has any. -/

namespace Sys2Proof.Tests

open Sys2Proof Sys2Proof.Machine

/-! ## Helpers -/

/-- The reset machine with this block. -/
def onBlock (b : Block) : State := { State.reset with block := b }

/-- The reset machine with this harness. -/
def onHost (h : Harness) : State := { State.reset with host := h }

/-- The reset machine driven by a host other than HPL32, with this block. -/
def onMaster (b : Block) : State := { onBlock b with plat := { cachesWindow := false, host := .busMaster } }

/-- The machine s on a posting bus, with these writes waiting. -/
def posting (ws : List PostedWrite) (fenced : Bool) (s : State) : State := { s with bus := .posting ws fenced }

/-- The machine s with these agent steps to come. -/
def sched (evs : List Event) (s : State) : State := { s with schedule := evs }

/-- The reset block with these DONE, BUSY and RES of sequence 0. -/
def seq0Block (done busy : Bool) (res : RawCode) : Block :=
  { Block.start with seq0 := { done := done, busy := busy, res := res } }

/-- The reset block with this timer 0. -/
def tmr0Block (en ie tmo : Bool) (load val : Word) : Block :=
  { Block.start with tmr0 := { en := en, ie := ie, tmo := tmo, load := load, val := val } }

/-- The reset harness with this program, r1 written with v. -/
def r1Host (prog : List Word) (v : Word) : Harness :=
  { Harness.start with
    prog := prog
    regs := #v[.start, { val := v, written := true }, .start, .start, .start, .start, .start, .start] }

/-- The word an access returns to its host. -/
def readBack (i : Instr) (s : State) : Option Word :=
  match exec i s with
  | .next t => match t.resp with
    | some (.readData d) => some d
    | _ => none
  | _ => none

/-- The block an instruction leaves. -/
def blockAfter (i : Instr) (b : Block) : Option Block :=
  match exec i (onBlock b) with
  | .next t => some t.block
  | _ => none

/-- The harness an instruction leaves. -/
def hostAfter (i : Instr) (h : Harness) : Option Harness :=
  match exec i (onHost h) with
  | .next t => some t.host
  | _ => none

/-- The machine that a step leaves. -/
def stepState (s : State) : Option State :=
  match step s with
  | .next t => some t
  | _ => none

/-! ## Well-formed terms -/

/-- The one check of WellFormed refuses a word that the map gives a meaning (HALT, RD r1 SEQ_STAT) and takes one with a
non-zero MBZ field or a reserved OP (R81). -/
theorem test_wellFormed_refuses_legal_words :
    (Instr.illegal 0x00000000#32).wellFormed = false ∧ (Instr.illegal 0x12000004#32).wellFormed = false ∧
    (Instr.illegal 0x00000001#32).wellFormed = true ∧ (Instr.illegal 0xF0000000#32).wellFormed = true := by
  decide

/-! ## Encodings, each word written out from the spec's own tables -/

/-- R73, offsets 0x000 to 0x018. -/
theorem test_decode_sequencer :
    decodeAccess 0x2000#16 0#32 = .ok .rdSeqTrig ∧ decodeAccess 0xA000#16 5#32 = .ok (.wrSeqTrig 5#32) ∧
    decodeAccess 0x2004#16 0#32 = .ok .rdSeqStat ∧ decodeAccess 0xA004#16 7#32 = .ok (.wrSeqStat 7#32) ∧
    decodeAccess 0x2008#16 0#32 = .ok .rdSeqClr ∧ decodeAccess 0xA008#16 2#32 = .ok (.wrSeqClr 2#32) ∧
    decodeAccess 0x2010#16 0#32 = .ok .rdSeqRes0 ∧ decodeAccess 0xA010#16 1#32 = .ok (.wrSeqRes0 1#32) ∧
    decodeAccess 0x2014#16 0#32 = .ok .rdSeqRes1 ∧ decodeAccess 0xA014#16 1#32 = .ok (.wrSeqRes1 1#32) ∧
    decodeAccess 0x2018#16 0#32 = .ok .rdSeqRes2 ∧ decodeAccess 0xA018#16 1#32 = .ok (.wrSeqRes2 1#32) :=
  ⟨rfl, rfl, rfl, rfl, rfl, rfl, rfl, rfl, rfl, rfl, rfl, rfl⟩

/-- R73, offsets 0x020 to 0x03C. -/
theorem test_decode_timers :
    decodeAccess 0x2020#16 0#32 = .ok .rdTmrCtl ∧ decodeAccess 0xA020#16 0x33#32 = .ok (.wrTmrCtl 0x33#32) ∧
    decodeAccess 0x2024#16 0#32 = .ok .rdTmrStat ∧ decodeAccess 0xA024#16 1#32 = .ok (.wrTmrStat 1#32) ∧
    decodeAccess 0x2028#16 0#32 = .ok .rdTmrClr ∧ decodeAccess 0xA028#16 3#32 = .ok (.wrTmrClr 3#32) ∧
    decodeAccess 0x2030#16 0#32 = .ok .rdTmrLoad0 ∧ decodeAccess 0xA030#16 9#32 = .ok (.wrTmrLoad0 9#32) ∧
    decodeAccess 0x2034#16 0#32 = .ok .rdTmrLoad1 ∧ decodeAccess 0xA034#16 9#32 = .ok (.wrTmrLoad1 9#32) ∧
    decodeAccess 0x2038#16 0#32 = .ok .rdTmrVal0 ∧ decodeAccess 0xA038#16 0#32 = .ok (.wrTmrVal0 0#32) ∧
    decodeAccess 0x203C#16 0#32 = .ok .rdTmrVal1 ∧ decodeAccess 0xA03C#16 0#32 = .ok (.wrTmrVal1 0#32) :=
  ⟨rfl, rfl, rfl, rfl, rfl, rfl, rfl, rfl, rfl, rfl, rfl, rfl, rfl, rfl⟩

/-- R73, offsets 0x040 to 0x048. -/
theorem test_decode_converter :
    decodeAccess 0x2040#16 0#32 = .ok .rdTcCode ∧ decodeAccess 0xA040#16 5#32 = .ok (.wrTcCode 5#32) ∧
    decodeAccess 0x2044#16 0#32 = .ok .rdTcCel ∧ decodeAccess 0xA044#16 5#32 = .ok (.wrTcCel 5#32) ∧
    decodeAccess 0x2048#16 0#32 = .ok .rdTcFah ∧ decodeAccess 0xA048#16 5#32 = .ok (.wrTcFah 5#32) :=
  ⟨rfl, rfl, rfl, rfl, rfl, rfl⟩

/-- The example words of R183 to R195 and, with a high offset bit set, an MBZ word of R81. -/
theorem test_decode_harness :
    decodeHpl 0x00000000#32 = .halt ∧ decodeHpl 0x12000004#32 = .rd 1 0x004#12 ∧
    decodeHpl 0x20800000#32 = .wr 0x000#12 2 ∧ decodeHpl 0x34000004#32 = .li 2 4#22 ∧
    decodeHpl 0x42400004#32 = .andi 1 1 4#22 ∧ decodeHpl 0x56FFFFFF#32 = .addi 3 3 0x3FFFFF#22 ∧
    decodeHpl 0x60400002#32 = .bz 1 2#22 ∧ decodeHpl 0x71C0000A#32 = .bnz 7 10#22 ∧
    decodeHpl 0x80000000#32 = .j 0#22 ∧ decodeHpl 0x90000000#32 = .ei ∧ decodeHpl 0xA0000000#32 = .di ∧
    decodeHpl 0xB0000000#32 = .reti ∧ decodeHpl 0xC0000000#32 = .illegal 0xC0000000#32 ∧
    decodeHpl 0x12001004#32 = .illegal 0x12001004#32 :=
  ⟨rfl, rfl, rfl, rfl, rfl, rfl, rfl, rfl, rfl, rfl, rfl, rfl, rfl, rfl⟩

/-- The error rows of L2.1, in its order. -/
theorem test_decode_errors :
    decodeAccess 0x200C#16 0#32 = .error (.busError .unmapped) ∧
    decodeAccess 0xA02C#16 0#32 = .error (.busError .unmapped) ∧
    decodeAccess 0x204C#16 0#32 = .error (.busError .unmapped) ∧
    decodeAccess 0x2FFC#16 0#32 = .error (.busError .unmapped) ∧
    decodeAccess 0xA00E#16 0#32 = .error (.busError .align) ∧
    decodeAccess 0x2FFF#16 0#32 = .error (.busError .align) ∧
    decodeAccess 0x0004#16 0#32 = .error (.busError .size) ∧
    decodeAccess 0x1004#16 0#32 = .error (.busError .size) ∧
    decodeAccess 0x3004#16 0#32 = .error (.busError .size) ∧
    decodeAccess 0x000D#16 0#32 = .error (.busError .size) ∧
    decodeAccess 0x6004#16 0#32 = .error (.busError .fetch) ∧
    decodeAccess 0x4001#16 0#32 = .error (.busError .fetch) ∧
    decodeAccess 0xE004#16 0#32 = .error .notBusAccess ∧ decodeAccess 0xC000#16 0#32 = .error .notBusAccess :=
  ⟨rfl, rfl, rfl, rfl, rfl, rfl, rfl, rfl, rfl, rfl, rfl, rfl, rfl, rfl⟩

/-! ## The sequencer (L2.2) -/

/-- R100's example, and rows 2, 3 and 15: an idle sequence starts, a busy one ignores the trigger, the reserved bits do
nothing. -/
theorem test_trigger :
    blockAfter (.wrSeqTrig 4#32) .start =
      some { Block.start with seq2 := { done := false, busy := true, res := 0#12 } } ∧
    blockAfter (.wrSeqTrig 1#32) (seq0Block true true 5#12) = some (seq0Block true true 5#12) ∧
    blockAfter (.wrSeqTrig 0xFFFFFFF8#32) .start = some .start := by
  decide

/-- R101's example (sequence 1 complete, sequence 2 in flight) and row 8. -/
theorem test_seqStat :
    readBack .rdSeqStat (onBlock { Block.start with
      seq1 := { done := true, busy := false, res := 0#12 }
      seq2 := { done := false, busy := true, res := 0#12 } }) = some 0x00000402#32 ∧
    readBack .rdSeqStat (onBlock { Block.start with
      seq0 := { done := true, busy := true, res := 0#12 }
      seq2 := { done := true, busy := false, res := 0#12 } }) = some 0x00000105#32 := by
  decide

/-- Rows 9 and 11: the named flag only, BUSY and RES kept. -/
theorem test_seqClr :
    blockAfter (.wrSeqClr 1#32) (seq0Block true true 5#12) = some (seq0Block false true 5#12) ∧
    blockAfter (.wrSeqClr 6#32) (seq0Block true false 5#12) = some (seq0Block true false 5#12) := by
  decide

/-- R105 to R107's examples. -/
theorem test_results :
    readBack .rdSeqRes0 (onBlock (seq0Block false false 0x7FF#12)) = some 0x000007FF#32 ∧
    readBack .rdSeqRes1 (onBlock .start) = some 0#32 ∧
    readBack .rdSeqRes2 (onBlock { Block.start with seq2 := { done := false, busy := false, res := 0xFFF#12 } }) =
      some 0x00000FFF#32 := by
  decide

/-- Row 14 and R137: the write-only registers. -/
theorem test_write_only_reads :
    readBack .rdSeqTrig (onBlock (seq0Block true true 1#12)) = some 0#32 ∧
    readBack .rdSeqClr (onBlock (seq0Block true true 1#12)) = some 0#32 ∧
    readBack .rdTmrClr (onBlock (tmr0Block true true true 1#32 1#32)) = some 0#32 := by
  decide

/-- Rows 7 and 13: the read-only registers of the sequencer. -/
theorem test_sequencer_ignored_writes :
    blockAfter (.wrSeqStat 7#32) (seq0Block true false 0x123#12) = some (seq0Block true false 0x123#12) ∧
    blockAfter (.wrSeqRes0 0xFFF#32) (seq0Block true false 0x123#12) = some (seq0Block true false 0x123#12) ∧
    blockAfter (.wrSeqRes1 0xFFF#32) .start = some .start ∧
    blockAfter (.wrSeqRes2 0xFFF#32) .start = some .start := by
  decide

/-- R112: a completion takes the code drawn from SRC(n)'s input, sets DONE and clears BUSY. -/
theorem test_conversion_completes :
    (stepState (sched [.convDone 0] (onBlock (seq0Block false true 5#12)))).map (fun t => (t.block, t.draws)) =
      some (seq0Block true false (Config.ain (Config.src 0) 0), 1) := rfl

/-! ## The timers (L2.3) -/

/-- R131's example, and R134's: TO[0] = 1, TO[1] = 0 and both enables reads 0x11; masked (row 15) it reads 0x01. -/
theorem test_timer_words :
    readBack .rdTmrCtl (onBlock { Block.start with
      tmr0 := { en := true, ie := true, tmo := false, load := 0#32, val := 0#32 }
      tmr1 := { en := true, ie := true, tmo := false, load := 0#32, val := 0#32 } }) = some 0x00000033#32 ∧
    readBack .rdTmrStat (onBlock { tmr0Block true true true 0#32 0#32 with
      tmr1 := { en := true, ie := true, tmo := false, load := 0#32, val := 0#32 } }) = some 0x00000011#32 ∧
    readBack .rdTmrStat (onBlock (tmr0Block true false true 0#32 0#32)) = some 0x00000001#32 := by
  decide

/-- R132's example: enabling timer 1 with LOAD[1] = 9 loads its count. -/
theorem test_control_enables :
    blockAfter (.wrTmrCtl 0x22#32)
      { Block.start with tmr1 := { en := false, ie := false, tmo := false, load := 9#32, val := 4#32 } } =
      some { Block.start with tmr1 := { en := true, ie := true, tmo := false, load := 9#32, val := 9#32 } } := by
  decide

/-- Rows 15, 16 and 21: no reload of a running timer, the timeout kept, the count held by a stopped one. -/
theorem test_control_keeps :
    blockAfter (.wrTmrCtl 0x11#32) (tmr0Block true false true 7#32 3#32) = some (tmr0Block true true true 7#32 3#32) ∧
    blockAfter (.wrTmrCtl 0#32) (tmr0Block true true true 7#32 6#32) =
      some (tmr0Block false false true 7#32 6#32) := by
  decide

/-- Rows 8, 9, 10 and 20: only a 1 written to TMR_CLR acknowledges; the count cannot be written. -/
theorem test_acknowledge :
    blockAfter (.wrTmrClr 1#32) (tmr0Block true true true 2#32 2#32) = some (tmr0Block true true false 2#32 2#32) ∧
    blockAfter (.wrTmrClr 2#32) (tmr0Block true true true 2#32 2#32) = some (tmr0Block true true true 2#32 2#32) ∧
    blockAfter (.wrTmrStat 1#32) (tmr0Block true true true 2#32 2#32) = some (tmr0Block true true true 2#32 2#32) ∧
    blockAfter (.wrTmrVal0 0#32) (tmr0Block true true true 2#32 7#32) = some (tmr0Block true true true 2#32 7#32) ∧
    blockAfter (.wrTmrVal1 0#32) .start = some .start := by
  decide

/-- R138's and R139's examples, row 11, and the reads of R142 to R145. -/
theorem test_loads :
    blockAfter (.wrTmrLoad0 0x00F423FF#32) (tmr0Block true true false 2#32 2#32) =
      some (tmr0Block true true false 15999999#32 2#32) ∧
    blockAfter (.wrTmrLoad1 0x001869FF#32) .start =
      some { Block.start with tmr1 := { Timer.start with load := 1599999#32 } } ∧
    readBack .rdTmrLoad0 (onBlock (tmr0Block true true false 5#32 2#32)) = some 5#32 ∧
    readBack .rdTmrVal0 (onBlock (tmr0Block true true false 5#32 2#32)) = some 2#32 ∧
    readBack .rdTmrLoad1 (onBlock { Block.start with tmr1 := { Timer.start with load := 9#32, val := 6#32 } }) =
      some 9#32 ∧
    readBack .rdTmrVal1 (onBlock { Block.start with tmr1 := { Timer.start with load := 9#32, val := 6#32 } }) =
      some 6#32 := by
  decide

/-- R140's example, row 4, and a disabled timer, which has no tick. -/
theorem test_ticks :
    (stepState (sched [.tick 0] (onBlock (tmr0Block true true false 2#32 0#32)))).map State.block =
      some (tmr0Block true true true 2#32 2#32) ∧
    (stepState (sched [.tick 0] (onBlock (tmr0Block true true false 2#32 2#32)))).map State.block =
      some (tmr0Block true true false 2#32 1#32) ∧
    (stepState (sched [.tick 0] (onBlock (tmr0Block false true false 2#32 2#32)))).map State.block =
      some (tmr0Block false true false 2#32 2#32) := by
  decide

/-! ## The converter (L1, L2.4) -/

/-- The corner codes of L2.4, as (Celsius, Fahrenheit). -/
theorem test_temperatures :
    [0#12, 8#12, 9#12, 2036#12, 2048#12, 2424#12, 2425#12, 2457#12, 2458#12, 2738#12, 2739#12, 4079#12, 4080#12,
        4095#12].map (fun r => (celsius r, fahrenheit (celsius r))) =
      [(147, 296), (147, 296), (146, 294), (24, 75), (23, 73), (1, 33), (0, 32), (0, 32), (-1, 30), (-17, 1), (-18, 0),
        (-98, -144), (-99, -146), (-99, -146)] := by
  decide

/-- The words of L1-1, L1-2 and L1-4. -/
theorem test_temperature_words :
    readBack .rdTcCel (onBlock .start) = some 0x00000093#32 ∧
    readBack .rdTcFah (onBlock .start) = some 0x00000128#32 ∧
    readBack .rdTcCel (onBlock { Block.start with tcCode := 0xFFF#12 }) = some 0xFFFFFF9D#32 ∧
    readBack .rdTcFah (onBlock { Block.start with tcCode := 0xFFF#12 }) = some 0xFFFFFF6E#32 ∧
    readBack .rdTcCel (onBlock { Block.start with tcCode := 0x800#12 }) = some 0x00000017#32 ∧
    readBack .rdTcFah (onBlock { Block.start with tcCode := 0x800#12 }) = some 0x00000049#32 := by
  decide

/-- L2.4: the low 12 bits only, the read zero-extended, the outputs not writable. -/
theorem test_converter_code :
    blockAfter (.wrTcCode 0x1000#32) { Block.start with tcCode := 5#12 } = some .start ∧
    readBack .rdTcCode (onBlock { Block.start with tcCode := 0xFFF#12 }) = some 0x00000FFF#32 ∧
    blockAfter (.wrTcCel 5#32) .start = some .start ∧ blockAfter (.wrTcFah 5#32) .start = some .start := by
  decide

/-! ## The harness (R183 to R198) -/

/-- R183's and R184's examples: a read of SEQ_STAT with DONE = 0b100, and a trigger of sequence 0. -/
theorem test_rd_wr :
    ((stepState (sched [.hostExec] { onHost (r1Host [0x12000004#32] 9#32) with
      block := { Block.start with seq2 := { done := true, busy := false, res := 0#12 } } })).map
        fun t => (t.host.pc, regOf t.host 1)) = some (1, { val := 4#32, written := true }) ∧
    ((stepState (sched [.hostExec] (onHost (r1Host [0x20400000#32] 1#32)))).map fun t => (t.host.pc, t.block)) =
      some (1, seq0Block false true 0#12) := by
  decide

/-- P6, P7: a reserved and a misaligned offset record BusFault at the pc, and the address is TAQ_BASE + OFF. -/
theorem test_bus_faults :
    (hostAfter (.rd 2 0x00C#12) .start).map Harness.fault =
      some (some (.busFault 0 (Config.taqBase + 0x00C) .unmapped)) ∧
    (hostAfter (.rd 2 0x006#12) .start).map Harness.fault =
      some (some (.busFault 0 (Config.taqBase + 0x006) .align)) :=
  ⟨rfl, rfl⟩

/-- R185 to R187: LI, ANDI with r1 = 0x406, and ADDI of -1 and over the top. -/
theorem test_immediates :
    (hostAfter (.li 2 0x3FFFFF#22) .start).map (fun h => (h.pc, regOf h 2)) =
      some (1, { val := 0x003FFFFF#32, written := true }) ∧
    (hostAfter (.andi 1 1 4#22) (r1Host [] 0x406#32)).map (fun h => (h.pc, (regOf h 1).val)) = some (1, 4#32) ∧
    (hostAfter (.addi 3 1 0x3FFFFF#22) (r1Host [] 1#32)).map (fun h => (h.pc, (regOf h 3).val)) = some (1, 0#32) ∧
    (hostAfter (.addi 1 1 1#22) (r1Host [] 0xFFFFFFFF#32)).map (fun h => (regOf h 1).val) = some 0#32 := by
  decide

/-- R188 to R190: taken and not taken. -/
theorem test_branches :
    (hostAfter (.bz 1 2#22) (r1Host [] 0#32)).map Harness.pc = some 2 ∧
    (hostAfter (.bz 1 2#22) (r1Host [] 8#32)).map Harness.pc = some 1 ∧
    (hostAfter (.bnz 1 10#22) (r1Host [] 1#32)).map Harness.pc = some 10 ∧
    (hostAfter (.bnz 1 10#22) (r1Host [] 0#32)).map Harness.pc = some 1 ∧
    (hostAfter (.j 5#22) .start).map Harness.pc = some 5 := by
  decide

/-- R180, R181, R193 and R195: the other faults. -/
theorem test_harness_faults :
    (hostAfter (.addi 0 2 0#22) .start).map Harness.fault = some (some (.unwrittenRegister 0 2)) ∧
    (hostAfter .reti .start).map Harness.fault = some (some (.retiOutsideHandler 0)) ∧
    (hostAfter (.illegal 0xC0000000#32) .start).map Harness.fault =
      some (some (.illegalInstruction 0 0xC0000000#32)) ∧
    (stepState (sched [.hostExec] (onHost (r1Host [] 0#32)))).map (fun t => t.host.fault) =
      some (some (.pcOutOfRange 0)) := by
  decide

/-- R191, R192, R193's example and R194. -/
theorem test_enable_and_halt :
    (hostAfter .ei .start).map (fun h => (h.pc, h.ien)) = some (1, true) ∧
    (hostAfter .di { Harness.start with ien := true }).map (fun h => (h.pc, h.ien)) = some (1, false) ∧
    (hostAfter .reti { Harness.start with pc := 8, epc := 5, epcValid := true }).map
      (fun h => (h.pc, h.epcValid, h.ien)) = some (5, false, true) ∧
    (hostAfter .halt { Harness.start with pc := 3 }).map (fun h => (h.pc, h.halted)) = some (3, true) := by
  decide

/-- The harness of L2.6: pc = 13 with interrupts enabled and both handlers named. -/
def irqHost : Harness := { Harness.start with pc := 13, ien := true, vec0 := some 53, vec1 := some 57 }

/-- The block with both timeouts pending, and with timer 1's only, all unmasked. -/
def bothIrqs : Block :=
  { tmr0Block true true true 0#32 0#32 with tmr1 := { en := true, ie := true, tmo := true, load := 0#32, val := 0#32 } }
def irq1Only : Block := { bothIrqs with tmr0 := .start }

/-- L2.6: with both lines asserted entry goes to VEC0 and saves 13; with IRQ[1] alone it goes to VEC1. -/
theorem test_interrupt_entry :
    ((stepState (sched [.hostIrq] { onHost irqHost with block := bothIrqs })).map fun t => t.host) =
      some { irqHost with pc := 53, epc := 13, epcValid := true, ien := false } ∧
    ((stepState (sched [.hostIrq] { onHost irqHost with block := irq1Only })).map fun t => t.host) =
      some { irqHost with pc := 57, epc := 13, epcValid := true, ien := false } := by
  decide

/-- The fetch interface runs exactly the placed word or access, from reset. -/
theorem test_fetch_word :
    decodeTableWord 32 0x34000004 = some (.li 2 4#22) ∧ decodeTableWord 16 0xA040 = some (.wrTcCode 0#32) ∧
    decodeTableWord 48 0x00000800A040 = some (.wrTcCode 0x800#32) ∧ decodeTableWord 16 0xE004 = none ∧
    (stepState (State.reset.withFetchWord 32 0x34000004)).map (fun t => (t.host.pc, (regOf t.host 2).val)) =
      some (1, 4#32) ∧
    (stepState (State.reset.withFetchWord 16 0x2044)).map State.resp = some (some (.readData 147#32)) := by
  decide

/-- R182, R227: an access is no step of the HPL32 host. -/
theorem test_access_is_no_hpl32_step :
    (stepState (sched [writeEvent .seqTrig 1#32] .reset)).map (fun t => (t.block, t.resp)) = some (.start, none) := rfl

/-- R60 (a), R62: on a posting bus a trigger waits and a read behind it has no step; delivered, it starts the
sequence. -/
theorem test_posted_write :
    (stepState (sched [writeEvent .seqTrig 1#32] (posting [] false (onMaster .start)))).map
      (fun t => (t.block, t.bus)) = some (.start, .posting [{ reg := .seqTrig, data := 1#32 }] false) ∧
    (stepState (sched [.access (.desc 0x2004#16 0#32)]
      (posting [{ reg := .seqTrig, data := 1#32 }] false (onMaster .start)))).map State.resp = some none ∧
    (stepState (sched [.deliver] (posting [{ reg := .seqTrig, data := 1#32 }] true (onMaster .start)))).map
      (fun t => (t.block, t.bus)) = some (seq0Block false true 0#12, .posting [] false) :=
  ⟨rfl, rfl, rfl⟩

/-! ## Witnesses: concrete values that meet the hypotheses of each statement that has any, clause by clause -/

theorem witness_DecodeOfEncodeIsTheInstruction :
    (Instr.illegal 0x12400004#32).wellFormed = true ∧ (Instr.wrTmrCtl 0xFFFFFFFF#32).wellFormed = true := by
  decide

theorem witness_EncodeOfDecodeIsTheCode :
    decodeAccess 0x2048#16 7#32 = .ok .rdTcFah ∧ decodeAccess 0xA000#16 7#32 = .ok (.wrSeqTrig 7#32) := ⟨rfl, rfl⟩

/-- One descriptor for each clause, the last three at the edges of the map: the first reserved offset after TC_FAH, the
one before SEQ_RES0, and TC_FAH itself. -/
theorem witness_DescriptorTestsApplyInOrder :
    ((0xC000#16).getLsbD 15 = true ∧ (0xC000#16).getLsbD 14 = true) ∧
    ((0x4001#16).getLsbD 15 = false ∧ (0x4001#16).getLsbD 14 = true) ∧
    ((0x3FFF#16).getLsbD 14 = false ∧ (0x3FFF#16).extractLsb' 12 2 ≠ 0b10#2) ∧
    ((0x2FFF#16).getLsbD 14 = false ∧ (0x2FFF#16).extractLsb' 12 2 = 0b10#2 ∧
      ((0x2FFF#16).extractLsb' 0 12).extractLsb' 0 2 ≠ 0#2) ∧
    ((0x204C#16).getLsbD 14 = false ∧ (0x204C#16).extractLsb' 12 2 = 0b10#2 ∧
      ((0x204C#16).extractLsb' 0 12).extractLsb' 0 2 = 0#2 ∧ 0x04C#12 ≤ (0x204C#16).extractLsb' 0 12) ∧
    ((0xA00C#16).getLsbD 14 = false ∧ (0xA00C#16).extractLsb' 12 2 = 0b10#2 ∧
      ((0xA00C#16).extractLsb' 0 12).extractLsb' 0 2 = 0#2 ∧ (0xA00C#16).extractLsb' 0 12 = 0x00C#12) ∧
    ((0xA048#16).getLsbD 14 = false ∧ (0xA048#16).extractLsb' 12 2 = 0b10#2 ∧
      ((0xA048#16).extractLsb' 0 12).extractLsb' 0 2 = 0#2 ∧ (0xA048#16).extractLsb' 0 12 = 0x048#12 ∧
      ¬ (0x04C#12 ≤ 0x048#12)) := by
  refine ⟨⟨rfl, rfl⟩, ⟨rfl, rfl⟩, ⟨rfl, ?_⟩, ⟨rfl, rfl, ?_⟩, ⟨rfl, rfl, rfl, ?_⟩, ⟨rfl, rfl, rfl, rfl⟩,
    ⟨rfl, rfl, rfl, rfl, ?_⟩⟩ <;> simp

/-- Each disjunct of `illegal` by one word at its edge, and two words that meet none of them. -/
theorem witness_IllegalWordsFault :
    0xC ≤ ((0xC0000000#32).extractLsb' 28 4).toNat ∧
    ((0x62000000#32).extractLsb' 25 3 ≠ 0#3 ∧ 0x6 ≤ ((0x62000000#32).extractLsb' 28 4).toNat) ∧
    ((0x10400000#32).extractLsb' 22 3 ≠ 0#3 ∧ ((0x10400000#32).extractLsb' 28 4).toNat = 0x1) ∧
    ((0x90000001#32).extractLsb' 0 22 ≠ 0#22 ∧ 0x9 ≤ ((0x90000001#32).extractLsb' 28 4).toNat) ∧
    ((0x20001000#32).extractLsb' 12 10 ≠ 0#10 ∧ ((0x20001000#32).extractLsb' 28 4).toNat = 0x2) ∧
    decodeHpl 0xB0000000#32 = .reti ∧ decodeHpl 0x4FFFFFFF#32 = .andi 7 7 0x3FFFFF#22 :=
  ⟨by decide, by decide, by decide, by decide, by decide, rfl, rfl⟩

/-- A scheduled access by descriptor of a host other than HPL32. -/
def accessState (d : Desc) : State := sched [.access (.desc d 3#32)] (onMaster .start)

theorem witness_StepRunsTheDecodedAccess :
    masterHost (accessState 0xA028#16) ∧ (accessState 0xA028#16).bus = .direct ∧
    (accessState 0xA028#16).schedule = .access (.desc 0xA028#16 3#32) :: [] ∧
    decodeAccess 0xA028#16 3#32 = .ok (.wrTmrClr 3#32) := ⟨⟨rfl, rfl, rfl⟩, rfl, rfl, rfl⟩

/-- The host at a program of one word, chosen next. -/
def fetchState (w : Word) : State := sched [.hostExec] (onHost (r1Host [w] 1#32))

/-- A jump on a bus with nothing waiting, and on one with a write waiting. -/
theorem witness_StepRunsTheFetchedWord :
    let s := fetchState 0x80000000#32
    let u := posting [{ reg := .seqTrig, data := 1#32 }] false s
    hplHost s ∧ chosenEvent s = .hostExec ∧ s.host.halted = false ∧ s.host.fault = none ∧
    s.host.prog[s.host.pc]? = some 0x80000000#32 ∧ waitingWrites s.bus = [] ∧
    hplHost u ∧ waitingWrites u.bus ≠ [] ∧ ∀ rd off, decodeHpl 0x80000000#32 ≠ .rd rd off := by
  refine ⟨⟨rfl, rfl⟩, rfl, rfl, rfl, rfl, rfl, ⟨rfl, rfl⟩, ?_, fun rd off h => ?_⟩
  · exact List.cons_ne_nil _ _
  · cases h

theorem witness_ScheduleRealisesEveryInterleaving : uncachedHost State.reset := rfl

theorem witness_BusErrorAnswersTheHostOnly :
    masterHost (accessState 0x2FFF#16) ∧ (accessState 0x2FFF#16).schedule = .access (.desc 0x2FFF#16 3#32) :: [] ∧
    decodeAccess 0x2FFF#16 3#32 = .error (.busError .align) := ⟨⟨rfl, rfl, rfl⟩, rfl, rfl⟩

theorem witness_WritingFetchIsRefused :
    masterHost (accessState 0xC000#16) ∧ (accessState 0xC000#16).schedule = .access (.desc 0xC000#16 3#32) :: [] ∧
    (0xC000#16).getLsbD 15 = true ∧ (0xC000#16).getLsbD 14 = true := ⟨⟨rfl, rfl, rfl⟩, rfl, rfl, rfl⟩

/-- A caching host is refused; a posting one and another bus master are not. -/
theorem witness_CachedWindowIsRefused :
    step { State.reset with plat := { cachesWindow := true, host := .hpl32 } } = .refused .windowCached ∧
    (stepState (posting [] false (sched [.tick 0] .reset))).isSome = true ∧
    (stepState (accessState 0x2000#16)).isSome = true := ⟨rfl, rfl, rfl⟩

/-- The last byte inside the window, and the first outside it. -/
theorem witness_AddressedAccessUsesItsOffset :
    masterHost (sched [.access (.addr true false 0b10#2 (Config.taqBase + 0xFFF) 1#32)] (onMaster .start)) ∧
    Config.taqBase + 0xFFF = Config.taqBase + (0xFFF#12).toNat ∧
    (Config.taqBase + 4096 < Config.taqBase ∨ Config.taqBase + 4096 ≤ Config.taqBase + 4096) :=
  ⟨⟨rfl, rfl, rfl⟩, rfl, .inr (Nat.le_refl _)⟩

/-- A halted and a faulted host, each chosen to execute or to enter a handler, and a running one with an access chosen. -/
theorem witness_StoppedHostChangesNothing :
    let halted := sched [.hostExec] (onHost { Harness.start with halted := true })
    let faulted := sched [.hostIrq] (onHost { Harness.start with fault := some (.pcOutOfRange 0) })
    let running := sched [writeEvent .seqTrig 1#32] (onHost (r1Host [0#32] 1#32))
    (hplHost halted ∧ isHostEvent (chosenEvent halted) = true ∧ halted.host.halted = true) ∧
    (hplHost faulted ∧ isHostEvent (chosenEvent faulted) = true ∧ faulted.host.fault ≠ none) ∧
    (hplHost running ∧ isHostEvent (chosenEvent running) = true ∧ chosenEvent running ≠ .hostExec ∧
      chosenEvent running ≠ .hostIrq) := by
  refine ⟨⟨⟨rfl, rfl⟩, rfl, rfl⟩, ⟨⟨rfl, rfl⟩, rfl, fun h => ?_⟩, ⟨⟨rfl, rfl⟩, rfl, fun h => ?_, fun h => ?_⟩⟩ <;>
    cases h

/-- The first pc past a program of one word. -/
theorem witness_FetchPastTheProgramFaults :
    let s := sched [.hostExec] (onHost { Harness.start with prog := [0#32], pc := 1 })
    hplHost s ∧ chosenEvent s = .hostExec ∧ s.host.halted = false ∧ s.host.fault = none ∧
    s.host.prog.length ≤ s.host.pc := ⟨⟨rfl, rfl⟩, rfl, rfl, rfl, Nat.le_refl _⟩

/-- CONV_DONE(0) chosen, with the sequence in flight or not. -/
def convState (busy : Bool) : State := sched [.convDone 0] (onBlock (seq0Block false busy 5#12))

theorem witness_CompletionSetsResultAndFlags :
    uncachedHost (convState true) ∧ chosenEvent (convState true) = .convDone 0 ∧
    (seqOf (convState true).block 0).busy = true ∧
    uncachedHost (convState false) ∧ chosenEvent (convState false) = .convDone 0 ∧
    (seqOf (convState false).block 0).busy = false := ⟨rfl, rfl, rfl, rfl, rfl, rfl⟩

/-- DONE[0] set and BUSY[0] cleared by a completion; DONE[0] cleared by SEQ_CLR; BUSY[0] set by a trigger. -/
theorem witness_SequencerStateHasItsWritersOnly :
    (∃ t, step (convState true) = .next t ∧ (seqOf (convState true).block 0).done = false ∧
      (seqOf t.block 0).done = true ∧ (seqOf t.block 0).busy = false) ∧
    (∃ s t, step s = .next t ∧ (seqOf s.block 0).done = true ∧ (seqOf t.block 0).done = false) ∧
    (∃ s t, step s = .next t ∧ (seqOf s.block 0).busy = false ∧ (seqOf t.block 0).busy = true) :=
  ⟨⟨_, rfl, rfl, rfl, rfl⟩,
    ⟨sched [writeEvent .seqClr 1#32] (onMaster (seq0Block true false 5#12)), _, rfl, rfl, rfl⟩,
    ⟨sched [writeEvent .seqTrig 1#32] (onMaster .start), _, rfl, rfl, rfl⟩⟩

/-- RES[0] changed by a completion: it held another code than the one drawn. -/
theorem witness_SequencerResultChanges :
    ∃ s t, step s = .next t ∧ (seqOf t.block 0).res ≠ (seqOf s.block 0).res := by
  refine ⟨sched [.convDone 0] (onBlock (seq0Block false true (~~~ Config.ain (Config.src 0) 0))), _, rfl, ?_⟩
  change Config.ain (Config.src 0) 0 ≠ ~~~ Config.ain (Config.src 0) 0
  intro h
  have := congrArg (fun c => c.getLsbD 0) h
  simp at this

/-- A trigger of an idle sequence, then its completion. -/
def protocolState : State := sched [writeEvent .seqTrig 1#32, .convDone 0] (onMaster .start)

theorem witness_TriggeredResultIsFresh :
    (seqOf protocolState.block 0).done = false ∧ (seqOf protocolState.block 0).busy = false ∧
    stepWrite protocolState = some (.seqTrig, 1#32) ∧ (1#32).getLsbD 0 = true ∧
    ∃ s1 t, step protocolState = .next s1 ∧
      Steps (fun u => chosenEvent u ≠ .reset ∧ ∀ e, stepWrite u = some (.seqTrig, e) → e.getLsbD 0 = false) s1 t ∧
      (seqOf t.block 0).done = true := by
  refine ⟨rfl, rfl, rfl, rfl, _, _, rfl, .tail _ _ _ (.refl _) ⟨?_, ?_⟩ rfl, rfl⟩
  · change Event.convDone 0 ≠ .reset
    exact fun h => by cases h
  · intro e h
    change (none : Option (Reg × Word)) = _ at h
    cases h

/-- TICK(0) chosen, at a count of 0, at a count of 1, and for a disabled timer. -/
def tickState (en : Bool) (val : Word) : State := sched [.tick 0] (onBlock (tmr0Block en true false 2#32 val))

theorem witness_TickCountsDownOrTimesOut :
    uncachedHost (tickState true 0#32) ∧ chosenEvent (tickState true 0#32) = .tick 0 ∧
    (tmrOf (tickState true 0#32).block 0).en = true ∧ (tmrOf (tickState true 1#32).block 0).en = true ∧
    chosenEvent (tickState true 1#32) = .tick 0 ∧ chosenEvent (tickState false 1#32) = .tick 0 ∧
    (tmrOf (tickState false 1#32).block 0).en = false := ⟨rfl, rfl, rfl, rfl, rfl, rfl, rfl⟩

/-- Three ticks of a timer just loaded with 2, with a completion of a sequence between them. -/
def periodState : State :=
  sched [.tick 0, .convDone 1, .tick 0, .tick 0, .reset] (onBlock (tmr0Block true true false 2#32 2#32))

theorem witness_PeriodIsLoadPlusOneTicks :
    periodState.schedule = [.tick 0, .convDone 1, .tick 0, .tick 0] ++ [.reset] ∧
    (tmrOf periodState.block 0).val = (tmrOf periodState.block 0).load ∧
    (∀ j, j ≤ 4 → ∃ v, Sys2Proof.core.run j periodState = .next v ∧
      (tmrOf v.block 0).en = true ∧ (tmrOf v.block 0).load = (tmrOf periodState.block 0).load) ∧
    (∀ j, j < 4 → ∀ v, Sys2Proof.core.run j periodState = .next v →
      ∀ data, stepWrite v = some (.tmrClr, data) → data.getLsbD 0 = false) ∧
    List.count (Event.tick 0) [.tick 0, .convDone 1, .tick 0, .tick 0] = 3 := by
  refine ⟨rfl, rfl, fun j h => ?_, fun j h v hv data hw => ?_, rfl⟩
  · match j, h with
    | 0, _ => exact ⟨_, rfl, rfl, rfl⟩
    | 1, _ => exact ⟨_, rfl, rfl, rfl⟩
    | 2, _ => exact ⟨_, rfl, rfl, rfl⟩
    | 3, _ => exact ⟨_, rfl, rfl, rfl⟩
    | 4, _ => exact ⟨_, rfl, rfl, rfl⟩
  · match j, h with
    | 0, _ => cases (Host.Outcome.next.inj hv); cases hw
    | 1, _ => cases (Host.Outcome.next.inj hv); cases hw
    | 2, _ => cases (Host.Outcome.next.inj hv); cases hw
    | 3, _ => cases (Host.Outcome.next.inj hv); cases hw

/-- The enables and the count changed by TMR_CTL, the reload value by TMR_LOAD0, TO[0] set by a tick and cleared by
TMR_CLR. -/
theorem witness_TimerStateHasItsWritersOnly :
    (∃ s u, step s = .next u ∧ (tmrOf u.block 0).en ≠ (tmrOf s.block 0).en ∧
      (tmrOf u.block 0).val ≠ (tmrOf s.block 0).val) ∧
    (∃ s u, step s = .next u ∧ (tmrOf u.block 0).load ≠ (tmrOf s.block 0).load) ∧
    (∃ s u, step s = .next u ∧ (tmrOf s.block 0).tmo = false ∧ (tmrOf u.block 0).tmo = true ∧
      (tmrOf u.block 0).val ≠ (tmrOf s.block 0).val) ∧
    (∃ s u, step s = .next u ∧ (tmrOf s.block 0).tmo = true ∧ (tmrOf u.block 0).tmo = false) :=
  ⟨⟨sched [writeEvent .tmrCtl 1#32] (onMaster (tmr0Block false false false 2#32 1#32)), _, rfl, by decide, by decide⟩,
    ⟨sched [writeEvent .tmrLoad0 7#32] (onMaster .start), _, rfl, by decide⟩,
    ⟨tickState true 0#32, _, rfl, rfl, rfl, by decide⟩,
    ⟨sched [writeEvent .tmrClr 1#32] (onMaster (tmr0Block true true true 2#32 1#32)), _, rfl, rfl, rfl⟩⟩

theorem witness_RepeatedWritesChangeNothing :
    (∃ t, exec (writeInstr 3#32 .tmrClr) (onBlock (tmr0Block true true true 2#32 1#32)) = .next t) ∧
    exec .rdTmrCtl (onBlock (tmr0Block true false true 2#32 1#32)) =
      .next { onBlock (tmr0Block true false true 2#32 1#32) with resp := some (.readData 1#32) } :=
  ⟨⟨_, rfl⟩, rfl⟩

theorem witness_TemperaturesFallWithTheCode : (2457#12 : RawCode) ≤ 2458#12 := by decide

/-- A dividend of 7 (code 2738), of -2 (code 2739) and of -20, a multiple of 5 (code 2773, C = -20). -/
theorem witness_FahrenheitTruncatesTowardZero :
    0 ≤ 9 * celsius 2738#12 + 160 ∧ 9 * celsius 2739#12 + 160 < 0 ∧ (9 * celsius 2739#12 + 160) % 5 ≠ 0 ∧
    9 * celsius 2773#12 + 160 < 0 ∧ (9 * celsius 2773#12 + 160) % 5 = 0 := by decide

theorem witness_TemperatureRanges :
    fahrenheit (celsius 2425#12) = fahrenheit (celsius 2457#12) ∧ celsius 0#12 = 147 ∧ celsius 4095#12 = -99 := by
  decide

/-- TC_CODE changed by a write, and by RESET. -/
theorem witness_ConverterCodeHasItsWritersOnly :
    (∃ s t, step s = .next t ∧ t.block.tcCode ≠ s.block.tcCode ∧ stepWrite s = some (.tcCode, 5#32)) ∧
    (∃ s t, step s = .next t ∧ t.block.tcCode ≠ s.block.tcCode ∧ chosenEvent s = .reset) :=
  ⟨⟨sched [writeEvent .tcCode 5#32] (onMaster .start), _, rfl, by decide, rfl⟩,
    ⟨sched [.reset] (onBlock { Block.start with tcCode := 5#12 }), _, rfl, by decide, rfl⟩⟩

/-- r1 is written and r2 is not; the bus is direct, or posts its writes. -/
theorem witness_WrStoresTheOperand :
    let s := onHost (r1Host [] 1#32)
    s.host.regs[(1 : RegIdx)].written = true ∧ s.host.regs[(2 : RegIdx)].written = false ∧ s.bus = .direct ∧
    (posting [] false s).host.regs[(1 : RegIdx)].written = true ∧ (posting [] false s).bus = .posting [] false :=
  ⟨rfl, rfl, rfl, rfl, rfl⟩

/-- A misaligned offset, the reserved offset before SEQ_RES0 and the first and last after TC_FAH. -/
theorem witness_BusErrorsFaultTheHarness :
    ∀ off ∈ [0x006#12, 0x00C#12, 0x04C#12, 0xFFC#12], ∀ r : Reg, r.offset ≠ off := by
  intro off h r
  simp only [List.mem_cons, List.not_mem_nil, or_false] at h
  rcases h with rfl | rfl | rfl | rfl <;> cases r <;> simp [Reg.offset]

/-- r1 is written and r2 is not. -/
theorem witness_ImmediateOperationsLoadTheirResult :
    (onHost (r1Host [] 0xFFFFFFFF#32)).host.regs[(1 : RegIdx)].written = true ∧
    (onHost (r1Host [] 0xFFFFFFFF#32)).host.regs[(2 : RegIdx)].written = false := ⟨rfl, rfl⟩

/-- r1 written with 0 and with 1, and r0 unwritten. -/
theorem witness_BranchesSetThePc :
    (onHost (r1Host [] 0#32)).host.regs[(1 : RegIdx)] = { val := 0#32, written := true } ∧
    (onHost (r1Host [] 1#32)).host.regs[(1 : RegIdx)] = { val := 1#32, written := true } ∧
    (onHost (r1Host [] 1#32)).host.regs[(0 : RegIdx)].written = false := ⟨rfl, rfl, rfl⟩

theorem witness_RetiReturnsToTheSavedPc :
    (onHost { Harness.start with epc := 5, epcValid := true }).host.epcValid = true ∧
    State.reset.host.epcValid = false := ⟨rfl, rfl⟩

/-- Entry enabled with a handler for IRQ[0], for IRQ[1] alone, without a handler, and not enabled (DI). -/
theorem witness_InterruptEntrySavesAndVectors :
    hplHost (sched [.hostIrq] (onHost irqHost)) ∧ chosenEvent (sched [.hostIrq] (onHost irqHost)) = .hostIrq ∧
    (irqHost.halted = false ∧ irqHost.fault = none ∧ irqHost.ien = true ∧
      ((tmrOf bothIrqs 0).tmo && (tmrOf bothIrqs 0).ie) = true ∧ irqHost.vec0 = some 53) ∧
    (((tmrOf irq1Only 0).tmo && (tmrOf irq1Only 0).ie) = false ∧
      ((tmrOf irq1Only 1).tmo && (tmrOf irq1Only 1).ie) = true ∧ irqHost.vec1 = some 57) ∧
    ({ irqHost with vec0 := none } : Harness).vec0 = none ∧
    ({ irqHost with ien := false } : Harness).ien ≠ true := by
  refine ⟨⟨rfl, rfl⟩, rfl, ⟨rfl, rfl, rfl, rfl, rfl⟩, ⟨rfl, rfl, rfl⟩, rfl, ?_⟩
  decide

/-- IEN set by EI; a saved pc made by interrupt entry. -/
theorem witness_HandlersDoNotNest :
    (∃ t, step (fetchState 0x90000000#32) = .next t ∧ (fetchState 0x90000000#32).host.ien = false ∧
      t.host.ien = true) ∧
    (∃ t, step (sched [.hostIrq] { onHost irqHost with block := bothIrqs }) = .next t ∧ irqHost.epcValid = false ∧
      t.host.epcValid = true) := ⟨⟨_, rfl, rfl, rfl⟩, ⟨_, rfl, rfl, rfl⟩⟩

/-- A step of a halted host's machine. -/
theorem witness_ProgramAndFaultsAreFixed :
    ∃ s t, step s = .next t ∧ s.host.halted = true :=
  ⟨sched [.hostExec] (onHost { Harness.start with halted := true }), _, rfl, rfl⟩

/-- A step that records a fault, from a consistent state, and a halting one. -/
theorem witness_RecordedFaultsStayExplained :
    hostConsistent (fetchState 0xC0000000#32) ∧
    (∃ t, step (fetchState 0xC0000000#32) = .next t ∧ t.host.fault = some (.illegalInstruction 0 0xC0000000#32)) ∧
    (∃ t, step (fetchState 0#32) = .next t ∧ t.host.halted = true) := by
  refine ⟨⟨fun f h => ?_, fun h => ?_⟩, ⟨_, rfl, rfl⟩, ⟨_, rfl, rfl⟩⟩
  · cases h
  · cases h

/-- A harness instruction other than WR, and a block operation by descriptor. -/
theorem witness_BlockAndHarnessMeetOnlyAtTheBus :
    (∃ t, exec .ei State.reset = .next t ∧ Instr.ei = decodeHpl 0x90000000#32 ∧ ∀ off rs, Instr.ei ≠ .wr off rs) ∧
    (∃ t, exec (.wrSeqTrig 1#32) State.reset = .next t ∧ decodeAccess 0xA000#16 1#32 = .ok (.wrSeqTrig 1#32)) := by
  refine ⟨⟨_, rfl, rfl, fun off rs h => ?_⟩, ⟨_, rfl, rfl⟩⟩
  cases h

/-- RESET with a conversion in flight and a timer running. -/
theorem witness_ResetMakesTheBlockQuiescent :
    uncachedHost (sched [.reset] (onBlock (seq0Block true true 5#12))) ∧
    chosenEvent (sched [.reset] (onBlock (seq0Block true true 5#12))) = .reset := ⟨rfl, rfl⟩

theorem witness_BootSequenceArmsBothTimers :
    (onMaster .start).plat.host = .busMaster ∧ (onMaster .start).bus = .direct ∧
    ∀ t, (tmrOf (onMaster .start).block t).en = false := ⟨rfl, rfl, by decide⟩

/-- A run in which the one conversion in flight completes at once and then nothing more is enabled. -/
def convRun : Nat → State
  | 0 => onBlock (seq0Block false true 5#12)
  | _ + 1 => convDone 0 (onBlock (seq0Block false true 5#12))
def convEvents : Nat → Event
  | 0 => .convDone 0
  | _ + 1 => .tick 0

theorem witness_FairConverterEndsEveryConversion :
    isEventRun convEvents convRun ∧ fairConv convEvents convRun ∧ (seqOf (convRun 0).block 0).busy = true := by
  refine ⟨fun k => ?_, fun n k h => ?_, rfl⟩
  · cases k <;> rfl
  · have := h (k + 1) (Nat.le_succ k)
    match n with
    | 0 => cases this
    | 1 => cases this
    | 2 => cases this

/-- A timer with LOAD = 0 that ticks at every step. -/
def tickRun (_ : Nat) : State := onBlock (tmr0Block true true true 0#32 0#32)
def tickEvents (_ : Nat) : Event := .tick 0

theorem witness_FairClockKeepsTimingOut :
    isEventRun tickEvents tickRun ∧ fairTick tickEvents tickRun ∧
    ∀ j, 0 ≤ j → (tmrOf (tickRun j).block 0).en = true := by
  refine ⟨fun _ => rfl, fun t k h => ?_, fun _ _ => rfl⟩
  match t with
  | 0 => exact ⟨k, Nat.le_refl k, rfl⟩
  | 1 => cases h k (Nat.le_refl k)

/-- A poll of SEQ_STAT while the conversion stays in flight and its completion flag is 0. -/
theorem witness_StalledConversionStaysInFlight :
    ∃ s t, (seqOf s.block 0).busy = true ∧ (seqOf s.block 0).done = false ∧
      Steps (fun u => chosenEvent u ≠ .reset ∧ chosenEvent u ≠ .convDone 0) s t ∧ t.resp ≠ s.resp := by
  refine ⟨sched [.access (.desc 0x2004#16 0#32)] (onMaster (seq0Block false true 5#12)), _, rfl, rfl,
    .tail _ _ _ (.refl _) ⟨fun h => ?_, fun h => ?_⟩ rfl, ?_⟩
  · cases h
  · cases h
  · decide

/-- One waiting write of TC_CODE, the host held back or not. -/
def postedState (fenced : Bool) (e : Event) : State :=
  sched [e] (posting [{ reg := .tcCode, data := 5#32 }] fenced (onMaster .start))

/-- Each clause: a write, a delivery, a read with a write waiting and with none, a barrier, and a host held back. -/
theorem witness_PostedWritesArriveInOrder :
    (∀ e, uncachedHost (postedState true e) ∧
      (postedState true e).bus = .posting [{ reg := .tcCode, data := 5#32 }] true ∧
      (postedState true e).plat.host = .busMaster ∧ chosenEvent (postedState true e) = e) ∧
    (∀ e, masterHost (postedState false e)) ∧ masterHost (sched [] (posting [] false (onMaster .start))) ∧
    decodeAccess 0xA040#16 3#32 = .ok (writeInstr 3#32 .tcCode) ∧
    decodeAccess 0x2040#16 3#32 = .ok (readInstr .tcCode) ∧ isHostEvent .hostIrq = true :=
  ⟨fun _ => ⟨rfl, rfl, rfl, rfl⟩, fun _ => ⟨rfl, rfl, rfl⟩, ⟨rfl, rfl, rfl⟩, rfl, rfl, rfl⟩

/-- An interrupt and a return chosen on another host; its HOST_TRAP takes one of the inputs or takes none. -/
theorem witness_OtherHostsTrapAsTheirParameterSays :
    masterHost (sched [.hostIrq] (onMaster bothIrqs)) ∧
    chosenEvent (sched [.hostIrq] (onMaster bothIrqs)) = .hostIrq ∧
    ((∃ i, Config.hostTrap.takes (onMaster bothIrqs).ctx [Config.irqLine 0, Config.irqLine 1] = some i) ∨
      Config.hostTrap.takes (onMaster bothIrqs).ctx [Config.irqLine 0, Config.irqLine 1] = none) ∧
    masterHost (sched [.hostReturn] (onMaster bothIrqs)) ∧
    chosenEvent (sched [.hostReturn] (onMaster bothIrqs)) = .hostReturn := by
  refine ⟨⟨rfl, rfl, rfl⟩, rfl, ?_, ⟨rfl, rfl, rfl⟩, rfl⟩
  cases h : Config.hostTrap.takes (onMaster bothIrqs).ctx [Config.irqLine 0, Config.irqLine 1]
  · exact .inr rfl
  · exact .inl ⟨_, rfl⟩

end Sys2Proof.Tests
end

section
/-! SUPPORT. No agent's step reads or changes the schedule, and none changes which host drives the block: a schedule is
only the order in which the events come (log 3). With it the statements of the scope are settled: what a scheduled step
is, and how another host enters and leaves its handlers. -/

namespace Sys2Proof.Machine

/-! ## The chosen step, where the schedule or the bus is known -/

theorem afterChoice_of_schedule {s : State} {e : Event} {rest : List Event} (h : s.schedule = e :: rest) :
    afterChoice s = { s with schedule := rest } := by
  simp [afterChoice, h]

theorem chosenEvent_of_schedule {s : State} {e : Event} {rest : List Event} (h : s.schedule = e :: rest) :
    chosenEvent s = e := by
  simp [chosenEvent, h]

/-- A scheduled event is the next step, at the state without its entry (R9). -/
theorem step_of_schedule {s : State} {e : Event} {rest : List Event} (hu : uncachedHost s)
    (h : s.schedule = e :: rest) : step s = runEvent e { s with schedule := rest } := by
  rw [step_of_uncachedHost hu, chosenEvent_of_schedule h, afterChoice_of_schedule h]

theorem masterHost_afterChoice {s : State} (h : masterHost s) : masterHost (afterChoice s) := by
  simpa [masterHost, uncachedHost] using h

/-- A bus master that its barrier does not hold back has the steps of a bus master (R9, R62). -/
theorem masterStep_of_masterHost (k : State → Result) {s : State} (h : masterHost s) : masterStep k s = k s := by
  obtain ⟨_, hm, hf⟩ := h
  simp [masterStep, hm, hf]

/-- Interrupt entry of a bus master is its own HOST_TRAP's (R219). -/
theorem hostIrq_of_masterHost {s : State} (h : masterHost s) : hostIrq s = .next (takeHostTrap s) := by
  obtain ⟨_, hm, hf⟩ := h
  simp [hostIrq, hm, hf]

/-- A scheduled bus access of a bus master is its request, at the state without the schedule's entry (R9, R50). -/
theorem step_of_scheduled_access {s : State} {r : BusReq} {rest : List Event} (hm : masterHost s)
    (h : s.schedule = .access r :: rest) : step s = runRequest r { s with schedule := rest } := by
  rw [step_of_uncachedHost hm.1, chosenEvent_of_schedule h, ← afterChoice_of_schedule h]
  exact masterStep_of_masterHost (runRequest r) (masterHost_afterChoice hm)

/-- On a bus that posts no write an accepted access is its operation at once (R60 (c)). -/
theorem busAccess_of_direct (i : Instr) {s : State} (h : s.bus = .direct) : busAccess i s = exec i s := by
  unfold busAccess
  rw [h]
  cases blockWrite i <;> rfl

/-- A descriptor that decodes is its operation on the host's bus (R72, R73). -/
theorem hostAccess_of_decodeAccess {d : Desc} {data : Word} {i : Instr} (h : decodeAccess d data = .ok i) (s : State) :
    hostAccess d data s = busAccess i s := by
  simp [hostAccess, decode, h]

/-! ## Another schedule -/

/-- The machine with another schedule (log 3). -/
def reschedule (l : List Event) (s : State) : State := { s with schedule := l }

/-- The outcome of a step with another schedule in the next state, where there is one. -/
def rescheduleResult (l : List Event) : Result → Result
  | .next s => .next (reschedule l s)
  | .fault f => .fault f
  | .refused r => .refused r

section

variable (l : List Event)

@[simp] theorem reschedule_block (s : State) : (reschedule l s).block = s.block := rfl
@[simp] theorem reschedule_host (s : State) : (reschedule l s).host = s.host := rfl
@[simp] theorem reschedule_plat (s : State) : (reschedule l s).plat = s.plat := rfl
@[simp] theorem reschedule_bus (s : State) : (reschedule l s).bus = s.bus := rfl

theorem withOperand_reschedule {k k' : Word → State} (rs : RegIdx) (s : State)
    (hk : ∀ v, k' v = reschedule l (k v)) :
    withOperand rs k' (reschedule l s) = reschedule l (withOperand rs k s) := by
  unfold withOperand
  rw [reschedule_host]
  cases readOperand s.host rs with
  | ok v => exact hk v
  | error f => rfl

theorem putWrite_reschedule (data : Word) (r : Reg) (s : State) :
    putWrite data r (reschedule l s) = reschedule l (putWrite data r s) := by
  unfold putWrite
  rw [reschedule_bus]
  cases s.bus <;> rfl

theorem deliverOldest_reschedule (s : State) :
    deliverOldest (reschedule l s) = reschedule l (deliverOldest s) := by
  obtain ⟨b, h, p, t, bus, c, q, n⟩ := s
  rcases bus with _ | ⟨_ | ⟨w, ws⟩, fenced⟩ <;> rfl

theorem convDone_reschedule (n : SeqIdx) (s : State) :
    convDone n (reschedule l s) = reschedule l (convDone n s) := by
  unfold convDone
  rw [reschedule_block]
  split <;> rfl

theorem clockTick_reschedule (t : TmrIdx) (s : State) :
    clockTick t (reschedule l s) = reschedule l (clockTick t s) := by
  unfold clockTick
  rw [reschedule_block]
  split <;> rfl

theorem exec_reschedule (i : Instr) (s : State) : exec i (reschedule l s) = rescheduleResult l (exec i s) := by
  cases i
  case rd rd off =>
    change execRd rd off _ = rescheduleResult l (execRd rd off s)
    unfold execRd
    rw [reschedule_block]
    cases busRead off s.block <;> rfl
  case wr off rs =>
    refine congrArg Host.Outcome.next (withOperand_reschedule l rs s fun v => ?_)
    unfold busWrite
    cases checkOffset off with
    | ok r => exact congrArg advancePc (putWrite_reschedule l v r s)
    | error k => rfl
  case andi rd rs imm => exact congrArg Host.Outcome.next (withOperand_reschedule l rs s fun _ => rfl)
  case addi rd rs imm => exact congrArg Host.Outcome.next (withOperand_reschedule l rs s fun _ => rfl)
  case bz rs target =>
    exact congrArg Host.Outcome.next (withOperand_reschedule l rs s fun _ => by split <;> rfl)
  case bnz rs target =>
    exact congrArg Host.Outcome.next (withOperand_reschedule l rs s fun _ => by split <;> rfl)
  all_goals rfl

theorem hostExec_reschedule (s : State) : hostExec (reschedule l s) = rescheduleResult l (hostExec s) := by
  unfold hostExec
  rw [reschedule_host, reschedule_bus]
  cases hostActive s.host
  · rfl
  · cases fetchWord s.host with
    | none => rfl
    | some w =>
      simp only [if_true, exec_reschedule]
      split <;> rfl

theorem busAccess_reschedule (i : Instr) (s : State) :
    busAccess i (reschedule l s) = rescheduleResult l (busAccess i s) := by
  cases hb : blockWrite i with
  | none =>
    simp only [busAccess, hb, reschedule_bus]
    cases (waitingWrites s.bus).isEmpty
    · rfl
    · exact exec_reschedule l i s
  | some p =>
    cases hs : s.bus with
    | direct =>
      rw [busAccess_of_direct i hs, busAccess_of_direct i ((reschedule_bus l s).trans hs)]
      exact exec_reschedule l i s
    | posting ws fenced =>
      simp only [busAccess, hb, reschedule_bus, hs, putWrite_reschedule]
      rfl

theorem hostAccess_reschedule (d : Desc) (data : Word) (s : State) :
    hostAccess d data (reschedule l s) = rescheduleResult l (hostAccess d data s) := by
  unfold hostAccess
  rcases decode (.access d data) with (k | _) | i
  · rfl
  · rfl
  · exact busAccess_reschedule l i s

theorem runRequest_reschedule (r : BusReq) (s : State) :
    runRequest r (reschedule l s) = rescheduleResult l (runRequest r s) := by
  cases r with
  | desc d data => exact hostAccess_reschedule l d data s
  | addr w x size addr data =>
    unfold runRequest
    dsimp only
    cases windowOffset addr with
    | none => rfl
    | some off => exact hostAccess_reschedule l _ data s

theorem hplStep_reschedule (k : State → Result) {s : State}
    (hk : k (reschedule l s) = rescheduleResult l (k s)) :
    hplStep k (reschedule l s) = rescheduleResult l (hplStep k s) := by
  unfold hplStep
  rw [reschedule_plat]
  cases s.plat.host
  · exact hk
  · rfl

theorem masterStep_reschedule (k : State → Result) {s : State}
    (hk : k (reschedule l s) = rescheduleResult l (k s)) :
    masterStep k (reschedule l s) = rescheduleResult l (masterStep k s) := by
  unfold masterStep
  rw [reschedule_plat, reschedule_bus]
  cases s.plat.host
  · rfl
  · cases hostFenced s.bus
    · exact hk
    · rfl

theorem hostIrq_reschedule (s : State) : hostIrq (reschedule l s) = rescheduleResult l (hostIrq s) := by
  unfold hostIrq
  rw [reschedule_plat, reschedule_bus]
  cases s.plat.host
  · rfl
  · cases hostFenced s.bus <;> rfl

/-- No agent reads the schedule: its step is the same step under any other one (R9, R61). -/
theorem runEvent_reschedule (e : Event) (s : State) :
    runEvent e (reschedule l s) = rescheduleResult l (runEvent e s) := by
  cases e with
  | reset => rfl
  | convDone n => exact congrArg Host.Outcome.next (convDone_reschedule l n s)
  | tick t => exact congrArg Host.Outcome.next (clockTick_reschedule l t s)
  | deliver => exact congrArg Host.Outcome.next (deliverOldest_reschedule l s)
  | hostExec => exact hplStep_reschedule l hostExec (hostExec_reschedule l s)
  | hostIrq => exact hostIrq_reschedule l s
  | hostReturn => exact masterStep_reschedule l (fun u => .next (returnHostTrap u)) rfl
  | hostBarrier => exact masterStep_reschedule l (fun u => .next { u with bus := raiseFence u.bus }) rfl
  | access r => exact masterStep_reschedule l (runRequest r) (runRequest_reschedule l r s)

end

/-! ## The platform -/

theorem hostAccess_plat {d : Desc} {data : Word} {s t : State} (h : hostAccess d data s = .next t) :
    t.plat = s.plat := by
  obtain ⟨r, _, ⟨_, rfl⟩ | ⟨_, rfl⟩⟩ | ⟨r, v, _, rfl⟩ | ⟨k, _, rfl⟩ := hostAccess_next h <;> simp

theorem exec_plat {i : Instr} {s t : State} (h : exec i s = .next t) : t.plat = s.plat :=
  exec_keeps State.plat (fun _ _ _ _ _ _ _ _ _ _ _ => rfl) h

theorem hostExec_plat {s t : State} (h : hostExec s = .next t) : t.plat = s.plat := by
  obtain ⟨_, w, _, _, h1⟩ | ⟨_, w, _, _, _, h1⟩ | ⟨_, _, h1⟩ | ⟨_, h1⟩ := hostExec_cases s <;>
    rw [h1] at h
  · exact exec_plat h
  · rw [← Host.Outcome.next.inj h]
  · rw [← Host.Outcome.next.inj h, recordFault_plat]
  · rw [← Host.Outcome.next.inj h]

theorem hostIrq_plat {s t : State} (h : hostIrq s = .next t) : t.plat = s.plat := by
  obtain ⟨_, u, _, h1⟩ | ⟨_, _, h1⟩ | ⟨_, _, h1⟩ | ⟨_, _, h1⟩ := hostIrq_cases s <;>
    rw [← Host.Outcome.next.inj (h1.symm.trans h)]
  exact takeHostTrap_plat s

/-- A step that only one kind of host has keeps the platform where its own work does. -/
theorem masterStep_plat (k : State → Result) {s t : State} (hk : ∀ u, k s = .next u → u.plat = s.plat)
    (h : masterStep k s = .next t) : t.plat = s.plat := by
  obtain ⟨_, _, h1⟩ | ⟨_, h1⟩ := masterStep_cases k s <;> rw [h1] at h
  · exact hk t h
  · rw [← Host.Outcome.next.inj h]

/-- No agent changes which host drives the block, or whether it caches the window (R65, R227). -/
theorem runEvent_plat {e : Event} {s t : State} (h : runEvent e s = .next t) : t.plat = s.plat := by
  cases e with
  | reset => rw [← Host.Outcome.next.inj h]; rfl
  | convDone n =>
    obtain ⟨_, h1⟩ | ⟨_, h1⟩ := convDone_cases n s <;> rw [← Host.Outcome.next.inj h, h1]
  | tick u =>
    obtain ⟨_, h1⟩ | ⟨_, h1⟩ := clockTick_cases u s <;> rw [← Host.Outcome.next.inj h, h1]
    exact setBlock_plat _ _
  | deliver => rw [← Host.Outcome.next.inj h, deliverOldest_plat]
  | hostExec =>
    obtain ⟨_, h1⟩ | ⟨_, h1⟩ := hplStep_cases hostExec s
    · exact hostExec_plat (h1.symm.trans h)
    · rw [← Host.Outcome.next.inj (h1.symm.trans h)]
  | hostIrq => exact hostIrq_plat h
  | hostReturn =>
    refine masterStep_plat (fun v => .next (returnHostTrap v)) (fun u hu => ?_) h
    rw [← Host.Outcome.next.inj hu, returnHostTrap_plat]
  | hostBarrier =>
    refine masterStep_plat (fun v => .next { v with bus := raiseFence v.bus }) (fun u hu => ?_) h
    rw [← Host.Outcome.next.inj hu]
  | access r =>
    refine masterStep_plat (runRequest r) (fun u hu => ?_) h
    obtain ⟨d, data, hd⟩ := runRequest_next hu
    exact hostAccess_plat hd

/-- A machine that is not refused for caching the window stays one (R65). -/
theorem runEvent_uncachedHost {e : Event} {s t : State} (hu : uncachedHost s) (h : runEvent e s = .next t) :
    uncachedHost t := by
  rw [uncachedHost, runEvent_plat h]
  exact hu

/-! ## A run of the schedule's events -/

/-- Going on from a next state, and stopping where a step stops. -/
def goOn {σ φ ρ : Type} (k : σ → Host.Outcome σ φ ρ) : Host.Outcome σ φ ρ → Host.Outcome σ φ ρ
  | .next s => k s
  | .fault f => .fault f
  | .refused r => .refused r

theorem run_succ (M : Host.Core) (n : Nat) (s : M.State) : M.run (n + 1) s = goOn (M.run n) (M.step s) := by
  rw [Host.Core.run]
  cases M.step s <;> rfl

theorem runEvents_cons (e : Event) (evs : List Event) (s : State) :
    runEvents (e :: evs) s = goOn (runEvents evs) (runEvent e s) := by
  rw [runEvents]
  cases runEvent e s <;> rfl

/-- The next step of a schedule is its first event's, and the rest of the schedule is left. -/
theorem step_reschedule_cons (e : Event) (rest : List Event) {s : State} (hu : uncachedHost s) :
    step (reschedule (e :: rest) s) = rescheduleResult rest (runEvent e s) := by
  have hu' : uncachedHost (reschedule (e :: rest) s) := hu
  rw [step_of_schedule hu' rfl]
  exact runEvent_reschedule rest e s

/-- A run of as many steps as there are scheduled events is those events, one after another (R60). -/
theorem run_scheduled (evs rest : List Event) {s : State} (hu : uncachedHost s) :
    Sys2Proof.core.run evs.length (reschedule (evs ++ rest) s) = runEvents evs (reschedule rest s) := by
  induction evs generalizing s with
  | nil => rfl
  | cons e evs ih =>
    have hstep : Sys2Proof.core.step (reschedule (e :: evs ++ rest) s)
        = rescheduleResult (evs ++ rest) (runEvent e s) := step_reschedule_cons e (evs ++ rest) hu
    refine (run_succ Sys2Proof.core evs.length _).trans ?_
    rw [hstep, runEvents_cons, runEvent_reschedule]
    cases h : runEvent e s with
    | next t => exact ih (runEvent_uncachedHost hu h)
    | fault f => rfl
    | refused r => rfl

/-! ## Interrupts of another host -/

/-- Another host's interrupt entry, chosen as the next step, is its HOST_TRAP's on the routed lines (R217, R219). -/
theorem step_of_masterHost_irq {s : State} (hm : masterHost s) (he : chosenEvent s = .hostIrq) :
    step s = .next { afterChoice s with
      ctx := takeTrap Config.hostTrap (assertedInputs Config.irqLine s.block) s.ctx } := by
  rw [step_of_uncachedHost hm.1, he, runEvent, hostIrq_of_masterHost (masterHost_afterChoice hm)]
  simp [takeHostTrap]

/-- Another host's return from an interrupt, chosen as the next step, is its HOST_TRAP's (R220). -/
theorem step_of_masterHost_return {s : State} (hm : masterHost s) (he : chosenEvent s = .hostReturn) :
    step s = .next { afterChoice s with ctx := Config.hostTrap.leave s.ctx } := by
  rw [step_of_uncachedHost hm.1, he, runEvent, masterStep_of_masterHost _ (masterHost_afterChoice hm), returnHostTrap,
    afterChoice_ctx]

/-! ## The statements of the scope -/

/-- Settles O8, by induction on the events: no agent reads the schedule, and each leaves the host uncached. -/
theorem scheduleRealisesEveryInterleaving : Obligations.ScheduleRealisesEveryInterleaving :=
  fun evs rest _ hu => run_scheduled evs rest hu

/-- Settles O6: the scheduled access is the access of its decoded operation, which a direct bus performs at once. -/
theorem stepRunsTheDecodedAccess : Obligations.StepRunsTheDecodedAccess := by
  intro s d data i rest hm hbus hs hd
  have hbus' : ({ s with schedule := rest } : State).bus = .direct := hbus
  calc step s
      = hostAccess d data { s with schedule := rest } := step_of_scheduled_access hm hs
    _ = busAccess i { s with schedule := rest } := hostAccess_of_decodeAccess hd _
    _ = exec i { s with schedule := rest } := busAccess_of_direct i hbus'

/-- Settles O60: entry takes the input that HOST_TRAP takes, if any, and return is HOST_TRAP's own. -/
theorem otherHostsTrapAsTheirParameterSays : Obligations.OtherHostsTrapAsTheirParameterSays := by
  intro s hm irq inputs
  refine ⟨fun he => ?_, step_of_masterHost_return hm⟩
  have hstep : step s = .next { afterChoice s with ctx := takeTrap Config.hostTrap inputs s.ctx } :=
    step_of_masterHost_irq hm he
  refine ⟨fun i hi => ?_, fun hn => ?_⟩
  · rw [hstep, takeTrap, hi]
  · rw [hstep, takeTrap, hn, ← afterChoice_ctx]

end Sys2Proof.Machine
end

section
/-! SUPPORT. What one step can do to one sequence, one timer and TC_CODE: `step_block` read for each unit of the block,
with the write rules that reach the unit. With it the statements of the state are settled: who writes each element, and
what it holds at the start. -/

namespace Sys2Proof.Machine

/-! ## The write rules, unit by unit -/

/-- Only SEQ_TRIG and SEQ_CLR reach sequence n, and each only with DATA[n] = 1 (R100, R103). -/
theorem seqOf_writeRegister_cases (data : Word) (b : Block) (r : Reg) (n : SeqIdx) :
    seqOf (writeRegister data b r) n = seqOf b n ∨
    (r = .seqTrig ∧ dataBit data n.val = true ∧ seqOf (writeRegister data b r) n = triggerSeq (seqOf b n)) ∨
    (r = .seqClr ∧ dataBit data n.val = true ∧ seqOf (writeRegister data b r) n = clearDone (seqOf b n)) := by
  cases r
  case seqTrig => cases hd : dataBit data n.val <;> simp [writeRegister, writeSeqTrig, hd]
  case seqClr => cases hd : dataBit data n.val <;> simp [writeRegister, writeSeqClr, hd]
  case tmrCtl => exact .inl (seqOf_mapTmrs _ _ n)
  case tmrClr => exact .inl (seqOf_mapTmrs _ _ n)
  case tmrLoad0 => exact .inl (seqOf_setTmr _ _ 0 n)
  case tmrLoad1 => exact .inl (seqOf_setTmr _ _ 1 n)
  all_goals exact .inl rfl

/-- TMR_LOADt, the register of timer t's reload value (R138, R139). -/
def loadRegister (t : TmrIdx) : Reg := if t = 0 then .tmrLoad0 else .tmrLoad1

/-- A reload write reaches its own timer alone, and there only LOAD (R138, R139). -/
theorem tmrOf_setTmr_load_cases (data : Word) (b : Block) (t u : TmrIdx) :
    tmrOf (setTmr b { tmrOf b u with load := data } u) t = tmrOf b t ∨
    (t = u ∧ tmrOf (setTmr b { tmrOf b u with load := data } u) t = { tmrOf b t with load := data }) := by
  rw [tmrOf_setTmr]
  by_cases h : t = u
  · exact .inr ⟨h, by rw [if_pos h, h]⟩
  · exact .inl (if_neg h)

/-- Only TMR_CTL, TMR_CLR with DATA[t] = 1 and TMR_LOADt reach timer t (R132, R136, R138, R139). -/
theorem tmrOf_writeRegister_cases (data : Word) (b : Block) (r : Reg) (t : TmrIdx) :
    tmrOf (writeRegister data b r) t = tmrOf b t ∨
    (r = .tmrCtl ∧ tmrOf (writeRegister data b r) t =
      controlTmr (dataBit data t.val) (dataBit data (4 + t.val)) (tmrOf b t)) ∨
    (r = .tmrClr ∧ dataBit data t.val = true ∧ tmrOf (writeRegister data b r) t = ackTmr (tmrOf b t)) ∨
    (r = loadRegister t ∧ tmrOf (writeRegister data b r) t = { tmrOf b t with load := data }) := by
  cases r
  case seqTrig => exact .inl (tmrOf_mapSeqs _ _ t)
  case seqClr => exact .inl (tmrOf_mapSeqs _ _ t)
  case tmrCtl => exact .inr (.inl ⟨rfl, tmrOf_mapTmrs _ _ t⟩)
  case tmrClr => cases hd : dataBit data t.val <;> simp [writeRegister, writeTmrClr, hd]
  case tmrLoad0 =>
    obtain h | ⟨rfl, h⟩ := tmrOf_setTmr_load_cases data b t 0
    · exact .inl h
    · exact .inr (.inr (.inr ⟨rfl, h⟩))
  case tmrLoad1 =>
    obtain h | ⟨rfl, h⟩ := tmrOf_setTmr_load_cases data b t 1
    · exact .inl h
    · exact .inr (.inr (.inr ⟨rfl, h⟩))
  all_goals exact .inl rfl

/-- Only TC_CODE's own write reaches the converter's code (R162). -/
theorem tcCode_writeRegister_cases (data : Word) (b : Block) (r : Reg) :
    (writeRegister data b r).tcCode = b.tcCode ∨ (r = .tcCode ∧ (writeRegister data b r).tcCode = dataCode data) := by
  cases r
  case tcCode => exact .inr ⟨rfl, rfl⟩
  case tmrLoad0 => exact .inl (setTmr_tcCode _ _ 0)
  case tmrLoad1 => exact .inl (setTmr_tcCode _ _ 1)
  all_goals exact .inl rfl

/-- A write of EN and IE changes VAL only where it enables the timer, and then to LOAD (R133). -/
theorem controlTmr_val_ne {e f : Bool} {q : Timer} (h : (controlTmr e f q).val ≠ q.val) :
    q.en = false ∧ e = true ∧ (controlTmr e f q).val = q.load := by
  rw [controlTmr_val] at h ⊢
  cases hen : q.en <;> cases e <;> simp [hen] at h ⊢

/-! ## The block after RESET -/

@[simp] theorem seqOf_resetBlock (res : SeqIdx → RawCode) (load val : TmrIdx → Word) (n : SeqIdx) :
    seqOf (resetBlock res load val) n = { done := false, busy := false, res := res n } := by
  fin_cases n <;> rfl

@[simp] theorem tmrOf_resetBlock (res : SeqIdx → RawCode) (load val : TmrIdx → Word) (t : TmrIdx) :
    tmrOf (resetBlock res load val) t = { en := false, ie := false, tmo := false, load := load t, val := val t } := by
  fin_cases t <;> rfl

/-! ## What one step can do to a unit of the block -/

/-- A step leaves sequence n as it is, or is one of its four writers: a trigger, a clear, its completion, RESET. -/
theorem step_seqOf_cases {s t : State} (h : step s = .next t) (n : SeqIdx) :
    seqOf t.block n = seqOf s.block n ∨
    (∃ data, stepWrite s = some (.seqTrig, data) ∧ dataBit data n.val = true ∧
      seqOf t.block n = triggerSeq (seqOf s.block n)) ∨
    (∃ data, stepWrite s = some (.seqClr, data) ∧ dataBit data n.val = true ∧
      seqOf t.block n = clearDone (seqOf s.block n)) ∨
    (chosenEvent s = .convDone n ∧ (seqOf s.block n).busy = true ∧
      seqOf t.block n = completeSeq (drawnCode s n) (seqOf s.block n)) ∨
    (chosenEvent s = .reset ∧
      seqOf t.block n = { done := false, busy := false, res := Config.resetRes (afterChoice s).draws n }) := by
  obtain hb | ⟨r, data, hw, hb⟩ | ⟨m, he, hm, hb⟩ | ⟨u, _, _, hb⟩ | ⟨he, hb⟩ := step_block h <;> rw [hb]
  · exact .inl rfl
  · obtain hq | ⟨rfl, hd, hq⟩ | ⟨rfl, hd, hq⟩ := seqOf_writeRegister_cases data s.block r n
    · exact .inl hq
    · exact .inr (.inl ⟨data, hw, hd, hq⟩)
    · exact .inr (.inr (.inl ⟨data, hw, hd, hq⟩))
  · rw [seqOf_setSeq]
    by_cases hnm : n = m
    · subst hnm
      exact .inr (.inr (.inr (.inl ⟨he, hm, if_pos rfl⟩)))
    · exact .inl (if_neg hnm)
  · exact .inl (seqOf_setTmr _ _ u n)
  · exact .inr (.inr (.inr (.inr ⟨he, seqOf_resetBlock _ _ _ n⟩)))

/-- A step leaves timer t as it is, or is one of its five writers: TMR_CTL, an acknowledge, TMR_LOADt, its tick,
RESET. -/
theorem step_tmrOf_cases {s u : State} (h : step s = .next u) (t : TmrIdx) :
    tmrOf u.block t = tmrOf s.block t ∨
    (∃ data, stepWrite s = some (.tmrCtl, data) ∧
      tmrOf u.block t = controlTmr (dataBit data t.val) (dataBit data (4 + t.val)) (tmrOf s.block t)) ∨
    (∃ data, stepWrite s = some (.tmrClr, data) ∧ dataBit data t.val = true ∧
      tmrOf u.block t = ackTmr (tmrOf s.block t)) ∨
    (∃ data, stepWrite s = some (loadRegister t, data) ∧ tmrOf u.block t = { tmrOf s.block t with load := data }) ∨
    (chosenEvent s = .tick t ∧ (tmrOf s.block t).en = true ∧ tmrOf u.block t = tickTmr (tmrOf s.block t)) ∨
    (chosenEvent s = .reset ∧
      tmrOf u.block t =
        { en := false
          ie := false
          tmo := false
          load := Config.resetLoad (afterChoice s).draws t
          val := Config.resetVal (afterChoice s).draws t }) := by
  obtain hb | ⟨r, data, hw, hb⟩ | ⟨m, _, _, hb⟩ | ⟨v, he, hv, hb⟩ | ⟨he, hb⟩ := step_block h <;> rw [hb]
  · exact .inl rfl
  · obtain hq | ⟨rfl, hq⟩ | ⟨rfl, hd, hq⟩ | ⟨rfl, hq⟩ := tmrOf_writeRegister_cases data s.block r t
    · exact .inl hq
    · exact .inr (.inl ⟨data, hw, hq⟩)
    · exact .inr (.inr (.inl ⟨data, hw, hd, hq⟩))
    · exact .inr (.inr (.inr (.inl ⟨data, hw, hq⟩)))
  · exact .inl (tmrOf_setSeq _ _ m t)
  · rw [tmrOf_setTmr]
    by_cases htv : t = v
    · subst htv
      exact .inr (.inr (.inr (.inr (.inl ⟨he, hv, if_pos rfl⟩))))
    · exact .inl (if_neg htv)
  · exact .inr (.inr (.inr (.inr (.inr ⟨he, tmrOf_resetBlock _ _ _ t⟩))))

/-- A step leaves TC_CODE as it is, or is one of its two writers: its own write, RESET. -/
theorem step_tcCode_cases {s t : State} (h : step s = .next t) :
    t.block.tcCode = s.block.tcCode ∨
    (∃ data, stepWrite s = some (.tcCode, data) ∧ t.block.tcCode = dataCode data) ∨
    (chosenEvent s = .reset ∧ t.block.tcCode = 0#12) := by
  obtain hb | ⟨r, data, hw, hb⟩ | ⟨m, _, _, hb⟩ | ⟨u, _, _, hb⟩ | ⟨he, hb⟩ := step_block h <;> rw [hb]
  · exact .inl rfl
  · obtain hc | ⟨rfl, hc⟩ := tcCode_writeRegister_cases data s.block r
    · exact .inl hc
    · exact .inr (.inl ⟨data, hw, hc⟩)
  · exact .inl (setSeq_tcCode _ _ m)
  · exact .inl (setTmr_tcCode _ _ u)
  · exact .inr (.inr ⟨he, rfl⟩)

/-! ## The statements of the state -/

/-- Settles O23: each of the sequence's four writers changes only the flags that the statement gives it. -/
theorem sequencerStateHasItsWritersOnly : Obligations.SequencerStateHasItsWritersOnly := by
  intro s t n h q q' completes resets
  obtain hq | ⟨data, hw, hd, hq⟩ | ⟨data, hw, hd, hq⟩ | ⟨he, hb, hq⟩ | ⟨he, hq⟩ := step_seqOf_cases h n <;>
    rw [show q' = _ from hq]
  · simp +contextual [q]
  · have htrigger : ∃ data, stepWrite s = some (.seqTrig, data) ∧ data.getLsbD n.val = true := ⟨data, hw, hd⟩
    simp +contextual [q, htrigger]
  · have hclear : ∃ data, stepWrite s = some (.seqClr, data) ∧ data.getLsbD n.val = true := ⟨data, hw, hd⟩
    simp +contextual [q, hclear]
  · have hcompletes : completes := ⟨he, hb⟩
    simp [hcompletes]
  · have hresets : resets := he
    simp [hresets]

/-- Settles O31: each of the timer's five writers changes only the fields that the statement gives it; a control write
changes VAL by the enable transition alone, and a tick sets TO at VAL = 0 alone. -/
theorem timerStateHasItsWritersOnly : Obligations.TimerStateHasItsWritersOnly := by
  intro s u t h q q' ticks resets
  obtain hq | ⟨data, hw, hq⟩ | ⟨data, hw, hd, hq⟩ | ⟨data, hw, hq⟩ | ⟨he, hen, hq⟩ | ⟨he, hq⟩ :=
    step_tmrOf_cases h t <;> rw [show q' = _ from hq]
  · simp +contextual [q]
  · refine ⟨fun _ => .inr ⟨data, hw, rfl, rfl⟩, by simp [q], fun hval => ?_, by simp +contextual [q],
      by simp +contextual [q]⟩
    exact .inr (.inr ⟨data, hw, controlTmr_val_ne hval⟩)
  · have hack : ∃ data, stepWrite s = some (.tmrClr, data) ∧ data.getLsbD t.val = true := ⟨data, hw, hd⟩
    simp +contextual [q, hack]
  · have hload : stepWrite s = some (if t = 0 then .tmrLoad0 else .tmrLoad1, data) := hw
    simp +contextual [q, hload]
  · have hticks : ticks := ⟨he, hen⟩
    simp +contextual [q, hticks, tickTmr_tmo]
  · have hresets : resets := he
    simp [hresets]

/-- Settles O39: a step that changes the code is one of its two writers. -/
theorem converterCodeHasItsWritersOnly : Obligations.ConverterCodeHasItsWritersOnly := by
  intro s t h hne
  obtain hc | ⟨data, hw, hc⟩ | hreset := step_tcCode_cases h
  · exact absurd hc hne
  · exact .inr ⟨data, hw, hc⟩
  · exact .inl hreset

/-! ## The start -/

@[simp] theorem seqOf_start (n : SeqIdx) : seqOf Block.start n = .start := by fin_cases n <;> rfl

@[simp] theorem tmrOf_start (t : TmrIdx) : tmrOf Block.start t = .start := by fin_cases t <;> rfl

@[simp] theorem regOf_start (i : RegIdx) : regOf Harness.start i = .start := by fin_cases i <;> rfl

/-- Code 0, which TC_CODE holds at the start, is 147 degrees Celsius, and 296 degrees Fahrenheit (R160, R161). -/
theorem temperatures_start : readTcCel Block.start = 147#32 ∧ readTcFah Block.start = 296#32 := by decide

/-- Settles O54: every unit holds its start value, and the two temperatures are those of code 0. -/
theorem stateAtReset : Obligations.StateAtReset := by
  obtain ⟨hcel, hfah⟩ := temperatures_start
  have hreadCel := exec_readInstr .tcCel State.reset
  have hreadFah := exec_readInstr .tcFah State.reset
  change exec .rdTcCel State.reset = .next (answerRead (readTcCel Block.start) State.reset) at hreadCel
  change exec .rdTcFah State.reset = .next (answerRead (readTcFah Block.start) State.reset) at hreadFah
  rw [hcel] at hreadCel
  rw [hfah] at hreadFah
  exact ⟨fun n => by simp [State.reset, Seq.start], fun t => by simp [State.reset, Timer.start], rfl,
    fun i => by simp [State.reset, HReg.start], rfl, rfl, rfl, rfl, rfl, hreadCel, hreadFah⟩

end Sys2Proof.Machine
end

section
/-! SUPPORT. The window as a host reaches it: the offset of a host address, which outcomes a step can have, what an
access does on a posting bus, and which writes change nothing when they are repeated. With it the statements of the
memory map are settled. -/

namespace Sys2Proof.Machine

/-! ## Refusals -/

/-- An accepted access on the host's bus answers a next state (R60, R211). -/
theorem busAccess_answers_next (i : Instr) (s : State) : ∃ t, busAccess i s = .next t := by
  unfold busAccess
  split
  · exact ⟨_, rfl⟩
  · exact exec_answers_next i s
  · split
    · exact exec_answers_next i s
    · exact ⟨s, rfl⟩

/-- An access is refused only as the writing fetch that is no bus access (R72 step 1). -/
theorem hostAccess_refused {d : Desc} {data : Word} {s : State} {r : Refusal}
    (h : hostAccess d data s = .refused r) : r = .notABusAccess d := by
  unfold hostAccess at h
  split at h
  · rename_i i _
    obtain ⟨t, ht⟩ := busAccess_answers_next i s
    rw [ht] at h
    cases h
  · cases h
  · cases h
    rfl

/-- A request is refused only as its access is; an address outside the window is no refusal (R50, R72). -/
theorem runRequest_refused {q : BusReq} {s : State} {r : Refusal} (h : runRequest q s = .refused r) :
    ∃ d, r = .notABusAccess d := by
  cases q with
  | desc d data => exact ⟨d, hostAccess_refused h⟩
  | addr w x size addr data =>
    unfold runRequest at h
    dsimp only at h
    split at h
    · exact ⟨_, hostAccess_refused h⟩
    · cases h

/-- The HPL32 Host's own step is never refused (R182, R197). -/
theorem hostExec_answers_next (s : State) : ∃ t, hostExec s = .next t := by
  obtain ⟨_, w, _, _, h⟩ | ⟨_, w, _, _, _, h⟩ | ⟨_, _, h⟩ | ⟨_, h⟩ := hostExec_cases s <;> rw [h]
  · exact exec_answers_next (decodeHpl w) s
  all_goals exact ⟨_, rfl⟩

/-- A bus master's step is refused only where the step itself is; one that its barrier holds back is not (R62). -/
theorem masterStep_refused {k : State → Result} {s : State} {r : Refusal} (h : masterStep k s = .refused r) :
    k s = .refused r := by
  obtain ⟨_, _, hk⟩ | ⟨_, hk⟩ := masterStep_cases k s <;> rw [hk] at h
  · exact h
  · cases h

/-- Of all the agents' steps only the access of a bus master is refused, and only as no bus access (R72 step 1). -/
theorem runEvent_refused {e : Event} {s : State} {r : Refusal} (h : runEvent e s = .refused r) :
    ∃ d, r = .notABusAccess d := by
  cases e with
  | hostExec =>
    change hplStep hostExec s = _ at h
    obtain ⟨_, hk⟩ | ⟨_, hk⟩ := hplStep_cases hostExec s <;> rw [hk] at h
    · obtain ⟨t, ht⟩ := hostExec_answers_next s
      rw [ht] at h
      cases h
    · cases h
  | hostIrq =>
    change hostIrq s = _ at h
    obtain ⟨_, _, _, hk⟩ | ⟨_, _, hk⟩ | ⟨_, _, hk⟩ | ⟨_, _, hk⟩ := hostIrq_cases s <;> rw [hk] at h <;> cases h
  | access q => exact runRequest_refused (masterStep_refused h)
  | hostReturn => cases masterStep_refused (k := fun u => .next (returnHostTrap u)) h
  | hostBarrier => cases masterStep_refused (k := fun u => .next { u with bus := raiseFence u.bus }) h
  | reset => cases h
  | convDone n => cases h
  | tick t => cases h
  | deliver => cases h

/-! ## The offset of a host address -/

/-- An address of the window has the offset it was made from (R50, R70). -/
theorem windowOffset_hostAddr (off : Offset) : windowOffset (hostAddr off) = some off := by
  have hlt : off.toNat < 4096 := off.isLt
  have hin : Config.taqBase ≤ Config.taqBase + off.toNat ∧ Config.taqBase + off.toNat < Config.taqBase + 4096 := by
    omega
  rw [windowOffset, hostAddr, if_pos hin, Nat.add_sub_cancel_left, BitVec.ofNat_toNat, BitVec.setWidth_eq]

/-- An address below or above the window has no offset (R50). -/
theorem windowOffset_of_outside {addr : Nat} (h : addr < Config.taqBase ∨ Config.taqBase + 4096 ≤ addr) :
    windowOffset addr = none := by
  rw [windowOffset, if_neg (by omega)]

/-- A request at an address of the window is the access by descriptor at its offset (R50, R70). -/
theorem runRequest_addr_hostAddr (w x : Bool) (size : BitVec 2) (off : Offset) (data : Word) (s : State) :
    runRequest (.addr w x size (hostAddr off) data) s = runRequest (.desc (descOf w x size off) data) s := by
  simp [runRequest, windowOffset_hostAddr]

/-- A request outside the window stops the machine (log 7). -/
theorem runRequest_addr_of_outside (w x : Bool) (size : BitVec 2) {addr : Nat} (data : Word) (s : State)
    (h : addr < Config.taqBase ∨ Config.taqBase + 4096 ≤ addr) :
    runRequest (.addr w x size addr data) s = .fault (.outsideWindow addr) := by
  simp [runRequest, windowOffset_of_outside h]

/-! ## A posting bus -/

/-- On a posting bus an accepted write joins the end of the queue (R62). -/
theorem putWrite_of_posting (data : Word) (r : Reg) {s : State} {ws : List PostedWrite} {fenced : Bool}
    (h : s.bus = .posting ws fenced) :
    putWrite data r s = { s with bus := .posting (ws ++ [{ reg := r, data := data }]) fenced } := by
  simp [putWrite, h]

/-- A delivery is the oldest write's register rule, and takes that write out of the queue (R62). -/
theorem deliverOldest_of_posting {s : State} {w : PostedWrite} {ws : List PostedWrite} {fenced : Bool}
    (h : s.bus = .posting (w :: ws) fenced) :
    deliverOldest s =
      { s with block := writeRegister w.data s.block w.reg, bus := .posting ws (fenced && !ws.isEmpty) } := by
  simp [deliverOldest, h]

/-- A bus master that its barrier holds back has none of the Host's steps (R62). -/
theorem runEvent_of_hostFenced {e : Event} {s : State} (hm : s.plat.host = .busMaster) (hf : hostFenced s.bus = true)
    (he : isHostEvent e = true) : runEvent e s = .next s := by
  have hmaster (k : State → Result) : masterStep k s = .next s := by simp [masterStep, hm, hf]
  cases e with
  | hostExec => simp [runEvent, hplStep, hm]
  | hostIrq => simp [runEvent, hostIrq, hm, hf]
  | hostReturn => simp [runEvent, hmaster]
  | hostBarrier => simp [runEvent, hmaster]
  | access q => simp [runEvent, hmaster]
  | reset => cases he
  | convDone n => cases he
  | tick t => cases he
  | deliver => cases he

/-! ## Writes that change nothing when repeated -/

/-- Two passes over the sequences are one pass, where that holds of each sequence. -/
theorem mapSeqs_idem {f : SeqIdx → Seq → Seq} (hf : ∀ n q, f n (f n q) = f n q) (b : Block) :
    mapSeqs f (mapSeqs f b) = mapSeqs f b :=
  block_ext (fun n => by simp [hf]) (fun t => by simp) rfl

/-- Two passes over the timers are one pass, where that holds of each timer. -/
theorem mapTmrs_idem {f : TmrIdx → Timer → Timer} (hf : ∀ t q, f t (f t q) = f t q) (b : Block) :
    mapTmrs f (mapTmrs f b) = mapTmrs f b :=
  block_ext (fun n => by simp) (fun t => by simp [hf]) rfl

/-- A pass over the timers that leaves each timer as it is leaves the block as it is. -/
theorem mapTmrs_eq_self {f : TmrIdx → Timer → Timer} {b : Block} (hf : ∀ t, f t (tmrOf b t) = tmrOf b t) :
    mapTmrs f b = b :=
  block_ext (fun n => by simp) (fun t => by simp [hf]) rfl

/-- A flag cleared twice by SEQ_CLR is cleared (R103). -/
theorem writeSeqClr_idem (data : Word) (b : Block) :
    writeSeqClr data (writeSeqClr data b) = writeSeqClr data b := by
  unfold writeSeqClr
  exact mapSeqs_idem (fun n q => by cases dataBit data n.val <;> rfl) b

/-- A timeout acknowledged twice by TMR_CLR is acknowledged (R136). -/
theorem writeTmrClr_idem (data : Word) (b : Block) :
    writeTmrClr data (writeTmrClr data b) = writeTmrClr data b := by
  unfold writeTmrClr
  exact mapTmrs_idem (fun t q => by cases dataBit data t.val <;> rfl) b

/-- The registers whose write rule gives the same block when the same word is written again (R57). -/
theorem writeRegister_idem (data : Word) (b : Block) {r : Reg}
    (hr : r ∈ [Reg.seqClr, .tmrClr, .tmrLoad0, .tmrLoad1, .tcCode]) :
    writeRegister data (writeRegister data b r) r = writeRegister data b r := by
  simp only [List.mem_cons, List.not_mem_nil, or_false] at hr
  obtain rfl | rfl | rfl | rfl | rfl := hr
  · exact writeSeqClr_idem data b
  · exact writeTmrClr_idem data b
  all_goals rfl

/-- Bits 1:0 of TMR_CTL are the enables, bits 5:4 the interrupt enables (R39). -/
theorem dataBit_tmrCtlWord (b : Block) (t : TmrIdx) :
    dataBit (tmrCtlWord b) t.val = (tmrOf b t).en ∧ dataBit (tmrCtlWord b) (4 + t.val) = (tmrOf b t).ie := by
  simp only [dataBit, tmrCtlWord, BitVec.getLsbD_setWidth, BitVec.getLsbD_append]
  fin_cases t <;> simp [flagBit, tmrOf]

/-- A timer's own EN and IE written back make no enable transition, and leave it as it is (R132, R133). -/
theorem controlTmr_self (q : Timer) : controlTmr q.en q.ie q = q := by
  simp [controlTmr]

/-- TMR_CTL's own value written back leaves the block as it is (R57). -/
theorem writeTmrCtl_readTmrCtl (b : Block) : writeTmrCtl (readTmrCtl b) b = b :=
  mapTmrs_eq_self fun t => by
    obtain ⟨hen, hie⟩ := dataBit_tmrCtlWord b t
    rw [readTmrCtl, hen, hie, controlTmr_self]

/-! ## The block and the harness -/

/-- An HPL32 instruction other than WR makes no register write (R51, R183). -/
theorem instrWrite_decodeHpl_of_ne_wr (h : Harness) {w : Word} (hw : ∀ off rs, decodeHpl w ≠ .wr off rs) :
    instrWrite h (decodeHpl w) = none := by
  have hb := blockWrite_decodeHpl w
  cases hi : decodeHpl w
  case wr off rs => exact absurd hi (hw off rs)
  all_goals
    rw [hi] at hb
    exact hb

/-- A block operation by descriptor is a register's read or write, and touches the block and the response alone
(R70, R73). -/
theorem exec_host_of_decodeAccess {d : Desc} {data : Word} {i : Instr} {s t : State}
    (hd : decodeAccess d data = .ok i) (h : exec i s = .next t) : t.host = s.host := by
  obtain ⟨r, _, rfl⟩ := decodeAccess_ok hd
  cases hw : descWrite d with
  | true =>
    rw [hw, if_pos rfl, exec_writeInstr] at h
    rw [← Host.Outcome.next.inj h, answerWrite_host]
  | false =>
    rw [hw, if_neg Bool.false_ne_true, exec_readInstr] at h
    rw [← Host.Outcome.next.inj h, answerRead_host]

/-! ## The statements of the memory map -/

/-- Settles O11: the refusal of a caching host is the step's own first test, and no agent's step is refused so. -/
theorem cachedWindowIsRefused : Obligations.CachedWindowIsRefused := by
  intro s
  cases hc : s.plat.cachesWindow with
  | true => simp [step, hc]
  | false =>
    rw [step_of_uncachedHost hc]
    refine iff_of_false (fun h => ?_) Bool.false_ne_true
    obtain ⟨d, hd⟩ := runEvent_refused h
    cases hd

/-- Settles O21: a read's word is the register's read rule of the block, which the read leaves alone. -/
theorem readsChangeNoStateAndRepeat : Obligations.ReadsChangeNoStateAndRepeat :=
  fun r s => ⟨readRegister s.block r, exec_readInstr r s, exec_readInstr r _⟩

/-- Settles O12: inside the window the two requests are one, and outside it the address has no offset. -/
theorem addressedAccessUsesItsOffset : Obligations.AddressedAccessUsesItsOffset := by
  intro s w x size addr data rest hm hs
  have hstep : step s = runRequest (.addr w x size addr data) { s with schedule := rest } :=
    step_of_scheduled_access hm hs
  refine ⟨fun off haddr => ?_, fun hout => ?_⟩
  · have hm' : masterHost { s with schedule := .access (.desc (descOf w x size off) data) :: rest } := hm
    have hoff : addr = hostAddr off := haddr
    rw [hstep, hoff, runRequest_addr_hostAddr, step_of_scheduled_access hm' rfl]
  · rw [hstep, runRequest_addr_of_outside w x size data _ hout]

/-- Settles O52: an HPL32 instruction without a register write leaves the block, and a descriptor's operation never
reaches the harness. -/
theorem blockAndHarnessMeetOnlyAtTheBus : Obligations.BlockAndHarnessMeetOnlyAtTheBus := by
  intro i s t h
  refine ⟨?_, fun ⟨d, data, hd⟩ => exec_host_of_decodeAccess hd h⟩
  rintro ⟨w, rfl⟩ hw
  obtain hb | ⟨_, r, data, hr, _⟩ := exec_block h
  · exact hb
  · rw [instrWrite_decodeHpl_of_ne_wr s.host hw] at hr
    cases hr

/-- Settles O32: each of the five write rules is idempotent, and TMR_CTL's own value has no enable transition. -/
theorem repeatedWritesChangeNothing : Obligations.RepeatedWritesChangeNothing := by
  intro data s t
  refine ⟨fun r hr h => ?_, fun c hread => ?_⟩
  · rw [exec_writeInstr] at h
    rw [← Host.Outcome.next.inj h, exec_writeInstr, answerWrite_block, writeRegister_idem data s.block hr]
    rfl
  · have hc : readTmrCtl s.block = c := by
      have hresp := congrArg State.resp (Host.Outcome.next.inj ((exec_readInstr .tmrCtl s).symm.trans hread))
      exact BusResp.readData.inj (Option.some.inj hresp)
    have hblock : writeRegister c s.block .tmrCtl = s.block := by
      rw [← hc]
      exact writeTmrCtl_readTmrCtl s.block
    exact (exec_writeInstr .tmrCtl c s).trans (by rw [hblock]; rfl)

/-- Settles O59, one clause after another: a write is queued, a delivery applies the oldest, a read waits, the barrier is
raised, and a host behind it has no step. -/
theorem postedWritesArriveInOrder : Obligations.PostedWritesArriveInOrder := by
  intro s ws fenced hu hbus
  have hbus' : (afterChoice s).bus = .posting ws fenced := by rw [afterChoice_bus, hbus]
  refine ⟨fun d data r v rest hm hs hd => ?_, fun w rest hws he => ?_, fun d data r rest hm hs hd => ?_,
    fun hm he => ?_, fun hm hf hws he => ?_⟩
  · calc step s
        = hostAccess d data { s with schedule := rest } := step_of_scheduled_access hm hs
      _ = busAccess (writeInstr v r) { s with schedule := rest } := hostAccess_of_decodeAccess hd _
      _ = .next { putWrite v r { s with schedule := rest } with resp := some .writeDone } :=
          busAccess_writeInstr v r _
      _ = _ := by rw [putWrite_of_posting v r (s := { s with schedule := rest }) hbus]
  · subst hws
    refine ⟨writeRegister w.data s.block w.reg, exec_writeInstr w.reg w.data s, ?_⟩
    rw [step_of_uncachedHost hu, he, runEvent, deliverOldest_of_posting hbus', afterChoice_block]
  · have hstep : step s = busAccess (readInstr r) { s with schedule := rest } :=
      (step_of_scheduled_access hm hs).trans (hostAccess_of_decodeAccess hd _)
    have hwaiting : waitingWrites ({ s with schedule := rest } : State).bus = ws := congrArg waitingWrites hbus
    rw [hstep]
    obtain ⟨hw, h⟩ | ⟨hw, h⟩ := busAccess_readInstr r { s with schedule := rest } <;> rw [hwaiting] at hw
    · rw [h, if_pos hw]
    · rw [h, if_neg hw]
  · rw [step_of_uncachedHost hu, he, runEvent, masterStep_of_masterHost _ (masterHost_afterChoice hm), hbus']
    rfl
  · have hm' : (afterChoice s).plat.host = .busMaster := by rw [afterChoice_plat, hm]
    have hfenced : hostFenced (afterChoice s).bus = true := by simp [hbus, hostFenced, hf, hws]
    rw [step_of_uncachedHost hu, runEvent_of_hostFenced hm' hfenced he]

end Sys2Proof.Machine
end

section
/-! SUPPORT. The decoder and the encoder as each other's inverses: a register's access and its descriptor, an HPL32 word
and its fields under the mask of R80. With it the statements of the encoding are settled. -/

namespace Sys2Proof.Machine

/-! ## Descriptors (R70 to R73) -/

@[simp] theorem encode_readInstr (r : Reg) : encode (readInstr r) = readCode r := by cases r <;> rfl

@[simp] theorem encode_writeInstr (data : Word) (r : Reg) : encode (writeInstr data r) = writeCode r data := by
  cases r <;> rfl

theorem decode_readCode (r : Reg) : decode (readCode r) = .ok (readInstr r) := decodeAccess_descOf false r 0#32

theorem decode_writeCode (r : Reg) (data : Word) : decode (writeCode r data) = .ok (writeInstr data r) :=
  decodeAccess_descOf true r data

/-- Only a register's own offset passes steps 4 and 5 of R72. -/
theorem offset_of_checkOffset {off : Offset} {r : Reg} (h : checkOffset off = .ok r) : r.offset = off := by
  unfold checkOffset at h
  split at h
  · cases h
  · cases hr : regAt off with
    | none => rw [hr] at h; cases h
    | some q =>
      rw [hr] at h
      rw [← Except.ok.inj h]
      exact offset_of_regAt hr

/-- The tests that an accepted descriptor has passed: no fetch, and a word (R72 steps 1 to 3). -/
theorem descFetch_descSize_of_decodeAccess {d : Desc} {data : Word} {i : Instr} (h : decodeAccess d data = .ok i) :
    descFetch d = false ∧ descSize d = 0b10#2 := by
  unfold decodeAccess at h
  split at h
  · cases h
  · split at h
    · cases h
    · next hx =>
      split at h
      · cases h
      · next hsize => exact ⟨Bool.eq_false_of_not_eq_true hx, not_not.mp hsize⟩

/-- An accepted descriptor is R73's descriptor of one register, and decodes to that register's operation. -/
theorem descOf_of_decodeAccess {d : Desc} {data : Word} {i : Instr} (h : decodeAccess d data = .ok i) :
    ∃ r : Reg, descOf (descWrite d) false 0b10#2 r.offset = d ∧
      i = if descWrite d then writeInstr data r else readInstr r := by
  obtain ⟨hfetch, hsize⟩ := descFetch_descSize_of_decodeAccess h
  obtain ⟨r, hoff, hi⟩ := decodeAccess_ok h
  refine ⟨r, ?_, hi⟩
  rw [offset_of_checkOffset hoff, ← hfetch, ← hsize, descOf_fields]

/-- An accepted descriptor is the encoding of what it decodes to; a read carries the data word 0 (R70, R73). -/
theorem encode_of_decodeAccess {d : Desc} {data : Word} {i : Instr} (h : decodeAccess d data = .ok i) :
    encode i = .access d (if descWrite d then data else 0#32) := by
  obtain ⟨r, hd, rfl⟩ := descOf_of_decodeAccess h
  cases hw : descWrite d <;> rw [hw] at hd
  · exact (encode_readInstr r).trans (congrArg (Code.access · 0#32) hd)
  · exact (encode_writeInstr data r).trans (congrArg (Code.access · data) hd)

/-! ## Illegal words (R80, R81) -/

/-- A word has no bit under a mask where none of its fields has one (R78 names every bit). -/
theorem and_eq_zero_iff_fields (w m : Word) :
    w &&& m = 0#32 ↔ hplOp w &&& hplOp m = 0#4 ∧ hplRd w &&& hplRd m = 0#3 ∧ hplRs w &&& hplRs m = 0#3 ∧
      hplImm w &&& hplImm m = 0#22 := by
  simp only [hplOp, hplRd, hplRs, hplImm, ← BitVec.extractLsb'_and]
  refine ⟨fun h => by simp [h], fun ⟨hop, hrd, hrs, himm⟩ => ?_⟩
  rw [← hplWord_fields (w &&& m), hplOp, hplRd, hplRs, hplImm, hop, hrd, hrs, himm]
  rfl

/-- No mask of R80 holds a bit of OP. -/
theorem hplOp_mbzMask (op : BitVec 4) : hplOp (mbzMask op) = 0#4 := by revert op; decide

/-- A word with an OP of the map is legal where no field has a bit under that OP's mask (R81). -/
theorem isIllegalWord_hplWord_eq_false_iff {op : BitVec 4} (hmap : op < 0xC#4) (rd rs : BitVec 3) (imm : Imm) :
    isIllegalWord (hplWord op rd rs imm) = false ↔
      rd &&& hplRd (mbzMask op) = 0#3 ∧ rs &&& hplRs (mbzMask op) = 0#3 ∧ imm &&& hplImm (mbzMask op) = 0#22 := by
  have hop : (hplWord op rd rs imm).extractLsb' 28 4 = op := hplOp_hplWord op rd rs imm
  have hle : ¬ 0xC#4 ≤ op := BitVec.not_le.mpr hmap
  simp [isIllegalWord, hop, hle, and_eq_zero_iff_fields, hplOp_mbzMask, hplRd_hplWord, hplRs_hplWord, hplImm_hplWord]

/-- A reserved OP is illegal (R81). -/
theorem isIllegalWord_of_reserved {w : Word} (h : 0xC ≤ (hplOp w).toNat) : isIllegalWord w = true := by
  have hle : 0xC#4 ≤ w.extractLsb' 28 4 := h
  simp [isIllegalWord, hle]

/-- A register field that the mask covers. -/
theorem field_and_seven_eq_zero_iff (f : BitVec 3) : f &&& 7#3 = 0#3 ↔ f = 0#3 := by
  rw [show (7#3) = BitVec.allOnes 3 from rfl, BitVec.and_allOnes]

/-- An immediate that the mask covers. -/
theorem imm_and_ones_eq_zero_iff (imm : Imm) : imm &&& 0x3FFFFF#22 = 0#22 ↔ imm = 0#22 := by
  rw [show (0x3FFFFF#22) = BitVec.allOnes 22 from rfl, BitVec.and_allOnes]

/-- The masks of RD and WR cover the immediate's upper part (R79). -/
theorem imm_and_high_eq_zero_iff (imm : Imm) : imm &&& 0x3FF000#22 = 0#22 ↔ immHigh imm = 0#10 := by
  constructor
  · intro h
    have hhigh : immHigh (imm &&& 0x3FF000#22) = 0#10 := by rw [h]; rfl
    rwa [immHigh, BitVec.extractLsb'_and, show (0x3FF000#22).extractLsb' 12 10 = BitVec.allOnes 10 from rfl,
      BitVec.and_allOnes] at hhigh
  · intro h
    rw [← immOfOffset_immOffset imm h]
    change (0#10 ++ immOffset imm) &&& (BitVec.allOnes 10 ++ 0#12) = 0#22
    rw [BitVec.and_append]
    simp

/-! ## HPL32 words (R78 to R81) -/

/-- The instruction is a reading of the word: it encodes to it, and is `illegal` for an illegal word only. -/
structure IsReading (w : Word) (i : Instr) : Prop where
  encode_eq : encode i = .word w
  eq_illegal_iff : i = .illegal w ↔ isIllegalWord w = true

theorem IsReading.wellFormed {w : Word} {i : Instr} (h : IsReading w i) : i.wellFormed = true := by
  cases i with
  | illegal v =>
    obtain rfl : v = w := Code.word.inj h.encode_eq
    exact h.eq_illegal_iff.mp rfl
  | _ => rfl

theorem isReading_illegal {w : Word} (h : isIllegalWord w = true) : IsReading w (.illegal w) :=
  ⟨rfl, fun _ => h, fun _ => rfl⟩

theorem isReading_of_legal {w : Word} {i : Instr} (h : isIllegalWord w = false) (hne : i ≠ .illegal w)
    (henc : encode i = .word w) : IsReading w i :=
  ⟨henc, fun hi => absurd hi hne, fun hw => absurd (h.symm.trans hw) Bool.false_ne_true⟩

/-- One row of R80 with its MBZ test: the row's instruction where the test passes, an illegal word elsewhere. -/
theorem isReading_ite {w : Word} {p : Prop} [Decidable p] {i : Instr} (hlegal : isIllegalWord w = false ↔ p)
    (hne : i ≠ .illegal w) (henc : p → encode i = .word w) : IsReading w (if p then i else .illegal w) := by
  split
  · next hp => exact isReading_of_legal (hlegal.mpr hp) hne (henc hp)
  · next hp => exact isReading_illegal (by simpa [hp] using hlegal)

/-- Every row of R80, with its MBZ test where it has one, reads the word with its fields. -/
theorem isReading_decodeHpl_hplWord (op : BitVec 4) (rd rs : BitVec 3) (imm : Imm) :
    IsReading (hplWord op rd rs imm) (decodeHpl (hplWord op rd rs imm)) := by
  have op_eq : ∀ n, op.toNat = n → op = BitVec.ofNat 4 n := fun n h => by simp [← h]
  simp only [decodeHpl, hplOp_hplWord, hplRd_hplWord, hplRs_hplWord, hplImm_hplWord]
  split
  -- ANDI and ADDI have no MBZ field.
  case h_5 hop | h_6 hop =>
    obtain rfl := op_eq _ hop
    refine isReading_of_legal ?_ (by simp) ?_
    · simp [isIllegalWord_hplWord_eq_false_iff, mbzMask, hplRd, hplRs, hplImm]
    · simp [encode]
  -- The reserved OPs.
  case h_13 h0 h1 h2 h3 h4 h5 h6 h7 h8 h9 hA hB =>
    refine isReading_illegal (isIllegalWord_of_reserved ?_)
    rw [hplOp_hplWord]
    simp only [imp_false] at *
    omega
  -- Every other row tests its MBZ fields.
  case h_1 hop | h_2 hop | h_3 hop | h_4 hop | h_7 hop | h_8 hop | h_9 hop | h_10 hop | h_11 hop | h_12 hop =>
    obtain rfl := op_eq _ hop
    refine isReading_ite ?_ (by simp) ?_
    · simp [isIllegalWord_hplWord_eq_false_iff, mbzMask, hplRd, hplRs, hplImm, field_and_seven_eq_zero_iff,
        imm_and_ones_eq_zero_iff, imm_and_high_eq_zero_iff]
    · simp +contextual [encode, immOfOffset_immOffset]

theorem isReading_decodeHpl (w : Word) : IsReading w (decodeHpl w) := by
  have h := isReading_decodeHpl_hplWord (hplOp w) (hplRd w) (hplRs w) (hplImm w)
  rwa [hplWord_fields] at h

/-- Decoding a well-formed instruction's encoding gives it back: a register's operation by its descriptor, an HPL32
instruction by the fields of its word. -/
theorem decode_encode {i : Instr} (h : i.wellFormed = true) : decode (encode i) = .ok i := by
  cases i with
  | rdSeqTrig | rdSeqStat | rdSeqClr | rdSeqRes0 | rdSeqRes1 | rdSeqRes2 | rdTmrCtl | rdTmrStat | rdTmrClr
  | rdTmrLoad0 | rdTmrLoad1 | rdTmrVal0 | rdTmrVal1 | rdTcCode | rdTcCel | rdTcFah => exact decode_readCode _
  | wrSeqTrig data | wrSeqStat data | wrSeqClr data | wrSeqRes0 data | wrSeqRes1 data | wrSeqRes2 data
  | wrTmrCtl data | wrTmrStat data | wrTmrClr data | wrTmrLoad0 data | wrTmrLoad1 data | wrTmrVal0 data
  | wrTmrVal1 data | wrTcCode data | wrTcCel data | wrTcFah data => exact decode_writeCode _ data
  | halt | rd rd off | wr off rs | li rd imm | andi rd rs imm | addi rd rs imm | bz rs target | bnz rs target
  | j target | ei | di | reti =>
    simp [encode, decode, decodeHpl, hplOp_hplWord, hplRd_hplWord, hplRs_hplWord, hplImm_hplWord]
  | illegal w => exact congrArg Except.ok ((isReading_decodeHpl w).eq_illegal_iff.mpr h)

/-! ## Refused descriptors -/

/-- W = 1 with X = 1 fails step 1 of R72. -/
theorem decodeAccess_of_writing_fetch {d : Desc} (data : Word) (hw : descWrite d = true) (hx : descFetch d = true) :
    decodeAccess d data = .error .notBusAccess := by
  simp [decodeAccess, hw, hx]

/-- A descriptor that is no bus access is refused (R72 step 1, R74). -/
theorem hostAccess_of_notBusAccess {d : Desc} {data : Word} (h : decodeAccess d data = .error .notBusAccess)
    (s : State) : hostAccess d data s = .refused (.notABusAccess d) := by
  simp [hostAccess, decode, h]

/-! ## The statements of the encoding -/

/-- Settles O1, by cases over the instructions. -/
theorem decodeOfEncodeIsTheInstruction : Obligations.DecodeOfEncodeIsTheInstruction :=
  fun _ h => decode_encode h

/-- Settles O2: what a word decodes to is a reading of it, and an accepted descriptor is one register's own. -/
theorem encodeOfDecodeIsTheCode : Obligations.EncodeOfDecodeIsTheCode :=
  ⟨fun w => ⟨(isReading_decodeHpl w).encode_eq, (isReading_decodeHpl w).wellFormed⟩,
    fun _ _ _ h => encode_of_decodeAccess h⟩

/-- Settles O3: each sample is the encoding of its instruction. -/
theorem sampleWordsDecode : Obligations.SampleWordsDecode :=
  ⟨decode_encode (i := .rdSeqStat) rfl,
    decode_encode (i := .wrTmrCtl 0x33#32) rfl,
    decode_encode (i := .wrTcFah 5#32) rfl,
    Except.ok.inj (decode_encode (i := .rd 1 0x004#12) rfl),
    Except.ok.inj (decode_encode (i := .wr 0x000#12 2) rfl),
    Except.ok.inj (decode_encode (i := .addi 3 3 0x3FFFFF#22) rfl),
    Except.ok.inj (decode_encode (i := .bnz 7 10#22) rfl),
    Except.ok.inj (decode_encode (i := .illegal 0xC0000000#32) rfl)⟩

/-- Settles O10: the scheduled access fails the first test of its descriptor. -/
theorem writingFetchIsRefused : Obligations.WritingFetchIsRefused := by
  intro s d data rest hm hs hw hx
  calc step s
      = hostAccess d data { s with schedule := rest } := step_of_scheduled_access hm hs
    _ = .refused (.notABusAccess d) := hostAccess_of_notBusAccess (decodeAccess_of_writing_fetch data hw hx) _

end Sys2Proof.Machine
end

section
/-! SUPPORT. The sequencer (40_sequencer.md): the register write of a step reaches the block, and what a run keeps of a
sequence while it is without RESET and without a new trigger, or without a completion. With it the statements of the
sequencer are settled. -/

namespace Sys2Proof.Machine

/-! ## The register write of a step reaches the block -/

/-- A block operation that makes a register write is that register's write operation (R73). -/
theorem eq_writeInstr_of_blockWrite {i : Instr} {r : Reg} {data : Word} (h : blockWrite i = some (r, data)) :
    i = writeInstr data r := by
  cases i <;> cases h <;> rfl

/-- An instruction with a register write is that register's write operation, or WR of a written register to a mapped
offset (R73, R184). -/
theorem instrWrite_eq_some {h : Harness} {i : Instr} {r : Reg} {data : Word} (hw : instrWrite h i = some (r, data)) :
    i = writeInstr data r ∨
    ∃ off rs, i = .wr off rs ∧ readOperand h rs = .ok data ∧ checkOffset off = .ok r := by
  cases i
  case wr off rs =>
    cases hr : readOperand h rs <;> cases hc : checkOffset off <;> simp [instrWrite, hr, hc] at hw
    obtain ⟨rfl, rfl⟩ := hw
    exact .inr ⟨off, rs, rfl, hr, hc⟩
  all_goals exact .inl (eq_writeInstr_of_blockWrite hw)

/-- On a bus that posts no write an instruction's register write has reached the block as it completes (R60 (c)). -/
theorem exec_block_of_instrWrite {i : Instr} {s t : State} {r : Reg} {data : Word} (hb : s.bus = .direct)
    (hw : instrWrite s.host i = some (r, data)) (h : exec i s = .next t) : t.block = writeRegister data s.block r := by
  obtain rfl | ⟨off, rs, rfl, hr, hc⟩ := instrWrite_eq_some hw
  · rw [exec_writeInstr] at h
    rw [← Host.Outcome.next.inj h, answerWrite_block]
  · rw [← Host.Outcome.next.inj h]
    simp [withOperand, hr, busWrite, hc, putWrite, hb]

/-- Choosing the next agent changes nothing that the Host decodes. -/
@[simp] theorem eventInstr_afterChoice (e : Event) (s : State) : eventInstr e (afterChoice s) = eventInstr e s := by
  simp only [eventInstr, afterChoice_plat, afterChoice_bus, afterChoice_host]

/-- On a bus that posts no write an access whose descriptor decodes is its operation at once (R60 (c), R72). -/
theorem hostAccess_of_direct {d : Desc} {data : Word} {i : Instr} {s : State} (hb : s.bus = .direct)
    (hd : (decodeAccess d data).toOption = some i) : hostAccess d data s = exec i s := by
  cases hok : decodeAccess d data with
  | error k =>
    rw [hok] at hd
    cases hd
  | ok j =>
    rw [hok] at hd
    rw [hostAccess_of_decodeAccess hok, busAccess_of_direct j hb, Option.some.inj hd]

/-- On a bus that posts no write, what the Host's event decodes is what its step executes (R60 (c), R70, R182). -/
theorem runEvent_of_eventInstr {e : Event} {s : State} {i : Instr} (hb : s.bus = .direct)
    (h : eventInstr e s = some i) : runEvent e s = exec i s := by
  have hnone : waitingWrites s.bus = [] := by rw [hb]; rfl
  have hfree : hostFenced s.bus = false := by rw [hb]; rfl
  cases hk : s.plat.host
  case hpl32 =>
    cases e with
    | hostExec =>
      simp only [eventInstr, hk, Option.ite_none_right_eq_some, Option.map_eq_some_iff] at h
      obtain ⟨hact, w, hf, rfl⟩ := h
      simp [runEvent, hplStep, hk, hostExec, hact, hf, hnone]
    | _ => simp [eventInstr, hk] at h
  case busMaster =>
    cases e with
    | access q =>
      have hrun : runEvent (.access q) s = runRequest q s := by simp [runEvent, masterStep, hk, hfree]
      rw [hrun]
      cases q with
      | desc d data => exact hostAccess_of_direct hb (by simpa [eventInstr, hk, hfree] using h)
      | addr w x size addr data =>
        simp only [eventInstr, hk, hfree, Bool.false_eq_true, if_false, Option.bind_eq_some_iff] at h
        obtain ⟨off, hoff, hd⟩ := h
        simpa [runRequest, hoff] using hostAccess_of_direct hb hd
    | _ => simp [eventInstr, hk] at h

theorem stepWrite_of_direct {s : State} (hb : s.bus = .direct) :
    stepWrite s = (stepInstr s).bind (instrWrite s.host) := by
  unfold stepWrite
  rw [hb]
  cases chosenEvent s <;> rfl

/-- On a posting bus only a delivery makes a register write: the oldest one that waits (R62). -/
theorem stepWrite_of_posting {s : State} {ws : List PostedWrite} {fenced : Bool} {p : Reg × Word}
    (hb : s.bus = .posting ws fenced) (h : stepWrite s = some p) :
    chosenEvent s = .deliver ∧ ∃ w rest, ws = w :: rest ∧ p = (w.reg, w.data) := by
  unfold stepWrite at h
  rw [hb] at h
  cases he : chosenEvent s <;> cases ws <;> simp [he] at h
  case deliver.cons w rest => exact ⟨rfl, w, rest, rfl, h.symm⟩

/-- The register write of a step is in the block after it, by that register's write rule (R60 (c), R62). -/
theorem step_block_of_stepWrite {s t : State} {r : Reg} {data : Word} (hw : stepWrite s = some (r, data))
    (h : step s = .next t) : t.block = writeRegister data s.block r := by
  obtain ⟨_, hrun⟩ := step_next h
  cases hb : s.bus with
  | direct =>
    have hb' : (afterChoice s).bus = .direct := (afterChoice_bus s).trans hb
    rw [stepWrite_of_direct hb, Option.bind_eq_some_iff] at hw
    obtain ⟨i, hi, hw⟩ := hw
    rw [runEvent_of_eventInstr hb' ((eventInstr_afterChoice _ s).trans hi)] at hrun
    rw [← afterChoice_host] at hw
    rw [exec_block_of_instrWrite hb' hw hrun, afterChoice_block]
  | posting ws fenced =>
    obtain ⟨he, w, rest, rfl, hp⟩ := stepWrite_of_posting hb hw
    have hb' : (afterChoice s).bus = .posting (w :: rest) fenced := (afterChoice_bus s).trans hb
    cases hp
    rw [he, runEvent, deliverOldest_of_posting hb'] at hrun
    rw [← Host.Outcome.next.inj hrun, afterChoice_block]

/-! ## The write rules and the status word of the sequencer -/

/-- A trigger makes the named sequences busy, idle or not (R100). -/
theorem seqOf_writeSeqTrig (data : Word) (b : Block) (n : SeqIdx) :
    seqOf (writeSeqTrig data b) n =
      { seqOf b n with busy := (seqOf b n).busy || data.getLsbD n.val } := by
  cases hd : data.getLsbD n.val <;> simp [writeSeqTrig, dataBit, hd]

/-- A clear drops the named sequences' completion flags (R103). -/
theorem seqOf_writeSeqClr (data : Word) (b : Block) (n : SeqIdx) :
    seqOf (writeSeqClr data b) n =
      { seqOf b n with done := (seqOf b n).done && !data.getLsbD n.val } := by
  cases hd : data.getLsbD n.val <;> simp [writeSeqClr, clearDone, dataBit, hd]

/-- SEQ_STAT shows each sequence's flags in the bits of R101. -/
theorem getLsbD_seqStatWord_flags (b : Block) (n : SeqIdx) :
    (seqStatWord b).getLsbD n.val = (seqOf b n).done ∧ (seqStatWord b).getLsbD (8 + n.val) = (seqOf b n).busy := by
  simp only [seqStatWord, BitVec.getLsbD_setWidth, BitVec.getLsbD_append]
  fin_cases n <;> simp [flagBit, seqOf]

/-- SEQ_STAT's other bits are 0 (R36, R101). -/
theorem getLsbD_seqStatWord_eq_false (b : Block) {k : Nat} (hlo : 3 ≤ k) (hmid : ¬ (8 ≤ k ∧ k ≤ 10)) :
    (seqStatWord b).getLsbD k = false := by
  simp only [seqStatWord, BitVec.getLsbD_setWidth]
  obtain h | h : k < 8 ∨ 11 ≤ k := by omega
  · simp only [BitVec.getLsbD_append]
    interval_cases k <;> simp
  · rw [BitVec.getLsbD_of_ge _ _ h, Bool.and_false]

/-- A result register's read word is its code below twenty zero bits (R71, R105). -/
theorem zextCode_eq_append (c : RawCode) : zextCode c = 0#20 ++ c := by
  apply BitVec.eq_of_getLsbD_eq
  intro k hk
  change (c.setWidth 32).getLsbD k = BitVec.getLsbD (w := 20 + 12) (0#20 ++ c) k
  rw [BitVec.getLsbD_setWidth, BitVec.getLsbD_append]
  by_cases h : k < 12
  · simp [h, hk]
  · simp [h, BitVec.getLsbD_of_ge c k (Nat.le_of_not_lt h)]

/-- The read-only registers of the block (R74). -/
def readOnlyRegs : List Reg :=
  [.seqStat, .seqRes0, .seqRes1, .seqRes2, .tmrStat, .tmrVal0, .tmrVal1, .tcCel, .tcFah]

/-- A read-only register's write rule leaves the block as it is (R74). -/
theorem writeRegister_of_mem_readOnlyRegs {r : Reg} (hr : r ∈ readOnlyRegs) (data : Word) (b : Block) :
    writeRegister data b r = b := by
  simp only [readOnlyRegs, List.mem_cons, List.not_mem_nil, or_false] at hr
  obtain rfl | rfl | rfl | rfl | rfl | rfl | rfl | rfl | rfl := hr <;> rfl

/-! ## One sequence along a run -/

/-- The steps of R117: no RESET, and no other trigger of sequence n. -/
def noResetNoTrigger (n : SeqIdx) (s : State) : Prop :=
  chosenEvent s ≠ .reset ∧ ∀ data, stepWrite s = some (.seqTrig, data) → data.getLsbD n.val = false

/-- Sequence n since its trigger at s: still in flight with DONE[n] = 0, or idle with the code that one CONV_DONE(n)
since then drew (R117). -/
def ResultFreshSince (n : SeqIdx) (s t : State) : Prop :=
  ((seqOf t.block n).busy = true ∧ (seqOf t.block n).done = false) ∨
  ((seqOf t.block n).busy = false ∧
    ∃ u, Steps (noResetNoTrigger n) s u ∧ chosenEvent u = .convDone n ∧ (seqOf u.block n).busy = true ∧
      (seqOf t.block n).res = drawnCode u n)

/-- A clear loses neither the flight nor the result, and a completion takes the one to the other. -/
theorem ResultFreshSince.after_step {n : SeqIdx} {s t u : State} (hst : Steps (noResetNoTrigger n) s t)
    (hfresh : ResultFreshSince n s t) (hquiet : noResetNoTrigger n t) (h : step t = .next u) :
    ResultFreshSince n s u := by
  obtain ⟨hreset, htrigger⟩ := hquiet
  obtain hq | ⟨data, hw, hd, _⟩ | ⟨data, _, _, hq⟩ | ⟨he, hb, hq⟩ | ⟨he, _⟩ := step_seqOf_cases h n
  · rwa [ResultFreshSince, hq]
  · exact absurd (htrigger data hw) (ne_false_of_eq_true hd)
  · rw [ResultFreshSince, hq]
    exact hfresh.imp_left fun ⟨hbusy, _⟩ => ⟨hbusy, rfl⟩
  · rw [ResultFreshSince, hq]
    exact .inr ⟨rfl, t, hst, he, hb, rfl⟩
  · exact absurd he hreset

/-- From a trigger on the result stays fresh (R117). -/
theorem resultFreshSince_of_steps {n : SeqIdx} {s t : State} (hbusy : (seqOf s.block n).busy = true)
    (hdone : (seqOf s.block n).done = false) (h : Steps (noResetNoTrigger n) s t) : ResultFreshSince n s t := by
  induction h with
  | refl => exact .inl ⟨hbusy, hdone⟩
  | tail t u hst hquiet hstep ih => exact ih.after_step hst hquiet hstep

/-- A step that neither resets nor completes a sequence in flight leaves it in flight with its result, and does not set
its completion flag (R115). -/
theorem step_inFlight {n : SeqIdx} {s t : State} (hbusy : (seqOf s.block n).busy = true)
    (hreset : chosenEvent s ≠ .reset) (hconv : chosenEvent s ≠ .convDone n) (h : step s = .next t) :
    (seqOf t.block n).busy = true ∧ (seqOf t.block n).res = (seqOf s.block n).res ∧
      ((seqOf s.block n).done = false → (seqOf t.block n).done = false) := by
  obtain hq | ⟨_, _, _, hq⟩ | ⟨_, _, _, hq⟩ | ⟨he, _⟩ | ⟨he, _⟩ := step_seqOf_cases h n
  · rw [hq]
    exact ⟨hbusy, rfl, id⟩
  · rw [hq, triggerSeq_eq]
    exact ⟨rfl, rfl, id⟩
  · rw [hq]
    exact ⟨hbusy, rfl, fun _ => rfl⟩
  · exact absurd he hconv
  · exact absurd he hreset

/-- A completion of a busy sequence leaves it idle (R112). -/
theorem seqOf_convDone_busy {n : SeqIdx} {s : State} (h : (seqOf s.block n).busy = true) :
    (seqOf (convDone n s).block n).busy = false := by
  simp [convDone, h, seqOf_setSeq]

/-! ## The statements of the sequencer -/

/-- Settles O24: the trigger leaves the sequence in flight with DONE[n] = 0, and from there on the result is fresh. -/
theorem triggeredResultIsFresh : Obligations.TriggeredResultIsFresh := by
  intro n s s1 t data hdone hidle hw hd hstep hrun hend
  have hq : seqOf s1.block n = { seqOf s.block n with busy := (seqOf s.block n).busy || data.getLsbD n.val } :=
    (congrArg (seqOf · n) (step_block_of_stepWrite hw hstep)).trans (seqOf_writeSeqTrig data s.block n)
  have hfresh : ResultFreshSince n s1 t :=
    resultFreshSince_of_steps (by simp [hq, hd]) (by simp [hq, hdone]) hrun
  obtain ⟨hbusy, hnotdone⟩ | hfinished := hfresh
  · rw [hbusy, hnotdone] at hend
    simp at hend
  · exact hfinished

/-- Settles O15: the write rule of SEQ_TRIG, sequence by sequence. -/
theorem triggerStartsIdleSequences : Obligations.TriggerStartsIdleSequences :=
  fun data s => ⟨decodeAccess_descOf true .seqTrig data, writeSeqTrig data s.block, exec_writeInstr .seqTrig data s,
    seqOf_writeSeqTrig data s.block, tmrOf_mapSeqs s.block _, mapSeqs_tcCode s.block _⟩

/-- Settles O16: the read rule of SEQ_STAT, bit by bit. -/
theorem seqStatShowsDoneAndBusy : Obligations.SeqStatShowsDoneAndBusy :=
  fun data s => ⟨decodeAccess_descOf false .seqStat data, seqStatWord s.block, exec_readInstr .seqStat s,
    getLsbD_seqStatWord_flags s.block, fun _ => getLsbD_seqStatWord_eq_false s.block⟩

/-- Settles O17: the write rule of SEQ_CLR, sequence by sequence. -/
theorem clearDropsTheNamedFlags : Obligations.ClearDropsTheNamedFlags :=
  fun data s => ⟨decodeAccess_descOf true .seqClr data, writeSeqClr data s.block, exec_writeInstr .seqClr data s,
    seqOf_writeSeqClr data s.block, tmrOf_mapSeqs s.block _, mapSeqs_tcCode s.block _⟩

/-- Settles O22: the Converter's step in its two cases. -/
theorem completionSetsResultAndFlags : Obligations.CompletionSetsResultAndFlags := by
  intro s n hu he
  have hstep : step s = .next (convDone n (afterChoice s)) := by rw [step_of_uncachedHost hu, he, runEvent]
  rw [hstep]
  obtain ⟨hbusy, hc⟩ | ⟨hidle, hc⟩ := convDone_cases n (afterChoice s) <;> rw [hc]
  · rw [afterChoice_block] at hbusy ⊢
    refine ⟨fun _ => ⟨_, rfl, ?_, fun m hm => ?_, tmrOf_setSeq _ _ n, setSeq_tcCode _ _ n⟩, fun h => ?_⟩
    · rw [seqOf_setSeq, if_pos rfl]
      rfl
    · rw [seqOf_setSeq, if_neg hm]
    · rw [hbusy] at h
      cases h
  · rw [afterChoice_block] at hidle
    refine ⟨fun h => ?_, fun _ => rfl⟩
    rw [hidle] at h
    cases h

/-- Settles O56: a conversion that never ended would stay enabled, so fairness would complete it. -/
theorem fairConverterEndsEveryConversion : Obligations.FairConverterEndsEveryConversion := by
  intro ev r hrun hfair n k hbusy
  by_contra hnever
  have halways : ∀ j, k ≤ j → (seqOf (r j).block n).busy = true := fun j hj => by
    obtain rfl | hlt := hj.eq_or_lt
    · exact hbusy
    · exact Bool.eq_true_of_not_eq_false fun hidle => hnever ⟨j, hlt, hidle⟩
  obtain ⟨j, hj, he⟩ := hfair n k halways
  have hnext : convDone n (r j) = r (j + 1) := by
    have := hrun j
    rw [he] at this
    exact Host.Outcome.next.inj this
  refine hnever ⟨j + 1, Nat.lt_succ_of_le hj, ?_⟩
  rw [← hnext]
  exact seqOf_convDone_busy (halways j hj)

/-- Settles O58, by induction on the steps. -/
theorem stalledConversionStaysInFlight : Obligations.StalledConversionStaysInFlight := by
  intro n s t hbusy h
  induction h with
  | refl => exact ⟨hbusy, rfl, id⟩
  | tail t u _ hquiet hstep ih =>
    obtain ⟨hreset, hconv⟩ := hquiet
    obtain ⟨hbusy', hres, hdone⟩ := ih
    obtain ⟨hbusy'', hres', hdone'⟩ := step_inFlight hbusy' hreset hconv hstep
    exact ⟨hbusy'', hres'.trans hres, hdone' ∘ hdone⟩

/-- Settles O18: each result register's read rule. -/
theorem resultReadsAreZeroExtended : Obligations.ResultReadsAreZeroExtended := by
  intro data s
  simp only [← zextCode_eq_append]
  exact ⟨decodeAccess_descOf false .seqRes0 data, decodeAccess_descOf false .seqRes1 data,
    decodeAccess_descOf false .seqRes2 data, exec_readInstr .seqRes0 s, exec_readInstr .seqRes1 s,
    exec_readInstr .seqRes2 s⟩

/-- Settles O19: each write-only register's read rule. -/
theorem writeOnlyRegistersReadZero : Obligations.WriteOnlyRegistersReadZero :=
  fun data s => ⟨decodeAccess_descOf false .seqTrig data, decodeAccess_descOf false .seqClr data,
    decodeAccess_descOf false .tmrClr data, exec_readInstr .seqTrig s, exec_readInstr .seqClr s,
    exec_readInstr .tmrClr s⟩

/-- Settles O20: the descriptor decodes to the write, and a read-only register's write rule leaves the block. -/
theorem readOnlyWritesAreIgnored : Obligations.ReadOnlyWritesAreIgnored := by
  intro data s p hp
  have hmap : p ∈ readOnlyRegs.map fun r => (descOf true false 0b10#2 r.offset, writeInstr data r) := hp
  obtain ⟨r, hr, rfl⟩ := List.mem_map.mp hmap
  have hexec : exec (writeInstr data r) s = .next (answerWrite (writeRegister data s.block r) s) :=
    exec_writeInstr r data s
  rw [writeRegister_of_mem_readOnlyRegs hr] at hexec
  exact ⟨decodeAccess_descOf true r data, hexec⟩

end Sys2Proof.Machine
end

section
/-! SUPPORT. The timer unit (41_timer.md): one timer under a write, a tick and a step, the count along a schedule, and
what any agent's event leaves of a count. With it the statements of the timers are settled. -/

namespace Sys2Proof.Machine

/-! ## The write rules and the words of the timer unit -/

/-- A control write sets EN and IE; VAL takes LOAD on the enable transition alone (R132, R133). -/
theorem tmrOf_writeTmrCtl (data : Word) (b : Block) (t : TmrIdx) :
    tmrOf (writeTmrCtl data b) t =
      { en := data.getLsbD t.val
        ie := data.getLsbD (4 + t.val)
        tmo := (tmrOf b t).tmo
        load := (tmrOf b t).load
        val := if (tmrOf b t).en = false ∧ data.getLsbD t.val = true then (tmrOf b t).load
          else (tmrOf b t).val } := by
  simp [writeTmrCtl, controlTmr, dataBit]

/-- A write of EN and IE leaves the count of a timer that is enabled already (R133). -/
theorem controlTmr_val_of_enabled {e f : Bool} {q : Timer} (h : q.en = true) : (controlTmr e f q).val = q.val := by
  simp [h]

/-- An acknowledge drops the named timers' timeout flags (R136). -/
theorem tmrOf_writeTmrClr (data : Word) (b : Block) (t : TmrIdx) :
    tmrOf (writeTmrClr data b) t = { tmrOf b t with tmo := (tmrOf b t).tmo && !data.getLsbD t.val } := by
  cases hd : data.getLsbD t.val <;> simp [writeTmrClr, ackTmr, dataBit, hd]

/-- The layout that TMR_CTL and TMR_STAT share: one flag of each timer in bits 1:0, another in bits 5:4 (R39, R40). -/
def timerFlagsWord (low high : TmrIdx → Bool) : Word :=
  (flagBit (high 1) ++ (flagBit (high 0) ++ (0#2 ++ (flagBit (low 1) ++ flagBit (low 0))))).setWidth 32

theorem tmrCtlWord_eq (b : Block) :
    tmrCtlWord b = timerFlagsWord (fun t => (tmrOf b t).en) fun t => (tmrOf b t).ie := rfl

theorem tmrStatWord_eq (b : Block) :
    tmrStatWord b = timerFlagsWord (fun t => (tmrOf b t).tmo) (irqLevel b) := rfl

theorem getLsbD_timerFlagsWord (low high : TmrIdx → Bool) (t : TmrIdx) :
    (timerFlagsWord low high).getLsbD t.val = low t ∧ (timerFlagsWord low high).getLsbD (4 + t.val) = high t := by
  simp only [timerFlagsWord, BitVec.getLsbD_setWidth, BitVec.getLsbD_append]
  fin_cases t <;> simp [flagBit]

/-- The other bits of both words are 0. -/
theorem getLsbD_timerFlagsWord_eq_false (low high : TmrIdx → Bool) {k : Nat} (hlo : 2 ≤ k)
    (hmid : ¬ (4 ≤ k ∧ k ≤ 5)) : (timerFlagsWord low high).getLsbD k = false := by
  simp only [timerFlagsWord, BitVec.getLsbD_setWidth]
  obtain h | h : k < 4 ∨ 6 ≤ k := by omega
  · simp only [BitVec.getLsbD_append]
    interval_cases k <;> simp
  · rw [BitVec.getLsbD_of_ge _ _ h, Bool.and_false]

/-! ## One tick -/

/-- A tick at a count of 0 reloads and times out; at any other count it counts down by one (R140). -/
theorem tickTmr_cases (q : Timer) :
    (q.val.toNat = 0 ∧ tickTmr q = { q with val := q.load, tmo := true }) ∨
    ∃ v : Word, v.toNat + 1 = q.val.toNat ∧ tickTmr q = { q with val := v } := by
  unfold tickTmr
  split
  · next h => exact .inl ⟨by rw [h]; rfl, rfl⟩
  · next h => exact .inr ⟨q.val - 1#32, by bv_omega, rfl⟩

/-- A timer that holds L - (p mod (L + 1)), as it does p ticks after its load with L, does so for p + 1 after one more
tick (R141). -/
theorem tickTmr_val_of_phase {q : Timer} {p : Nat} (h : q.val.toNat = q.load.toNat - p % (q.load.toNat + 1)) :
    (tickTmr q).val.toNat = q.load.toNat - (p + 1) % (q.load.toNat + 1) := by
  have hlt : p % (q.load.toNat + 1) < q.load.toNat + 1 := Nat.mod_lt p (Nat.succ_pos _)
  rw [← Nat.mod_add_mod]
  obtain ⟨hzero, hq⟩ | ⟨v, hv, hq⟩ := tickTmr_cases q <;> rw [hq]
  · have hwrap : p % (q.load.toNat + 1) = q.load.toNat := by omega
    simp [hwrap]
  · change v.toNat = _
    rw [Nat.mod_eq_of_lt (by omega)]
    omega

/-- The next tick and c more time a timer out where c + 1 do: more than its count (R140, R148). -/
theorem tickTmr_tmo_or (q : Timer) (c : Nat) :
    ((tickTmr q).tmo || decide ((tickTmr q).val.toNat < c)) = (q.tmo || decide (q.val.toNat < c + 1)) := by
  obtain ⟨hzero, hq⟩ | ⟨v, hv, hq⟩ := tickTmr_cases q <;> rw [hq]
  · simp [hzero]
  · simp [← hv]

/-- The Clock's step of an enabled timer is one tick of it (R140). -/
theorem tmrOf_clockTick_of_enabled {t : TmrIdx} {s : State} (h : (tmrOf s.block t).en = true) :
    tmrOf (clockTick t s).block t = tickTmr (tmrOf s.block t) := by
  simp [clockTick, h, tmrOf_setTmr]

/-- A chosen tick is the Clock's step (R9, R140). -/
theorem step_of_tick {s : State} {t : TmrIdx} (hu : uncachedHost s) (he : chosenEvent s = .tick t) :
    step s = .next (clockTick t (afterChoice s)) := by
  rw [step_of_uncachedHost hu, he, runEvent]

/-! ## A timer that stays enabled, along a schedule -/

/-- The step acknowledges no timeout of timer t (R136). -/
def noAck (t : TmrIdx) (s : State) : Prop :=
  ∀ data, stepWrite s = some (.tmrClr, data) → data.getLsbD t.val = false

/-- Its own tick is one tick of an enabled timer (R140). -/
theorem step_tmrOf_of_tick {s u : State} {t : TmrIdx} (h : step s = .next u) (he : chosenEvent s = .tick t)
    (hen : (tmrOf s.block t).en = true) : tmrOf u.block t = tickTmr (tmrOf s.block t) := by
  obtain ⟨hu, _⟩ := step_next h
  have hen' : (tmrOf (afterChoice s).block t).en = true := by rw [afterChoice_block, hen]
  rw [step_of_tick hu he] at h
  rw [← Host.Outcome.next.inj h, tmrOf_clockTick_of_enabled hen', afterChoice_block]

/-- A step other than its tick leaves the count of a timer that stays enabled, and its timeout flag too where it
acknowledges no timeout of it (R133, R136, R140). -/
theorem step_tmrOf_of_ne_tick {s u : State} {t : TmrIdx} (h : step s = .next u) (he : chosenEvent s ≠ .tick t)
    (hen : (tmrOf s.block t).en = true) (hen' : (tmrOf u.block t).en = true) :
    (tmrOf u.block t).val = (tmrOf s.block t).val ∧
      (noAck t s → (tmrOf u.block t).tmo = (tmrOf s.block t).tmo) := by
  obtain hq | ⟨data, hw, hq⟩ | ⟨data, hw, hd, hq⟩ | ⟨data, hw, hq⟩ | ⟨ht, _⟩ | ⟨_, hq⟩ := step_tmrOf_cases h t
  · rw [hq]
    exact ⟨rfl, fun _ => rfl⟩
  · rw [hq]
    exact ⟨controlTmr_val_of_enabled hen, fun _ => rfl⟩
  · rw [hq]
    exact ⟨rfl, fun hack => absurd (hack data hw) (ne_false_of_eq_true hd)⟩
  · rw [hq]
    exact ⟨rfl, fun _ => rfl⟩
  · exact absurd ht he
  · rw [hq] at hen'
    cases hen'

/-- A step takes its event off the schedule and leaves the rest (log 3). -/
theorem step_schedule_of_cons {s u : State} {e : Event} {rest : List Event} (hs : s.schedule = e :: rest)
    (h : step s = .next u) : u.schedule = rest := by
  obtain ⟨hu, _⟩ := step_next h
  rw [step_of_schedule hu hs] at h
  change runEvent e (reschedule rest s) = .next u at h
  rw [runEvent_reschedule] at h
  cases hr : runEvent e s <;> rw [hr] at h <;> cases h
  rfl

/-- Through n steps timer t stays enabled, with its LOAD. -/
def staysLoaded (t : TmrIdx) (n : Nat) (s : State) : Prop :=
  ∀ j, j ≤ n → ∃ v, Sys2Proof.core.run j s = .next v ∧
    (tmrOf v.block t).en = true ∧ (tmrOf v.block t).load = (tmrOf s.block t).load

/-- None of n steps acknowledges a timeout of timer t. -/
def neverAcked (t : TmrIdx) (n : Nat) (s : State) : Prop :=
  ∀ j, j < n → ∀ v, Sys2Proof.core.run j s = .next v → noAck t v

theorem run_succ_of_step {s u : State} (h : step s = .next u) (n : Nat) :
    Sys2Proof.core.run (n + 1) s = Sys2Proof.core.run n u :=
  (run_succ Sys2Proof.core n s).trans (congrArg (goOn (Sys2Proof.core.run n)) h)

theorem step_of_run_one {s u : State} (h : Sys2Proof.core.run 1 s = .next u) : step s = .next u := by
  have hrun : goOn (Sys2Proof.core.run 0) (step s) = .next u := (run_succ Sys2Proof.core 0 s).symm.trans h
  cases hs : step s <;> rw [hs] at hrun <;> exact hrun

theorem staysLoaded.enabled {t : TmrIdx} {n : Nat} {s : State} (h : staysLoaded t n s) :
    (tmrOf s.block t).en = true := by
  obtain ⟨v, hv, hen, _⟩ := h 0 (Nat.zero_le n)
  rwa [Host.Outcome.next.inj hv]

/-- The first of the steps keeps timer t's LOAD, and the other ones keep it enabled and loaded from there. -/
theorem staysLoaded.first_step {t : TmrIdx} {n : Nat} {s : State} (h : staysLoaded t (n + 1) s) :
    ∃ u, step s = .next u ∧ (tmrOf u.block t).load = (tmrOf s.block t).load ∧ staysLoaded t n u := by
  obtain ⟨u, hrun, _, hload⟩ := h 1 (by omega)
  have hstep : step s = .next u := step_of_run_one hrun
  refine ⟨u, hstep, hload, fun j hj => ?_⟩
  obtain ⟨v, hv, hen, hvload⟩ := h (j + 1) (by omega)
  exact ⟨v, (run_succ_of_step hstep j).symm.trans hv, hen, hvload.trans hload.symm⟩

theorem neverAcked.first_step {t : TmrIdx} {n : Nat} {s u : State} (h : neverAcked t (n + 1) s)
    (hstep : step s = .next u) : noAck t s ∧ neverAcked t n u :=
  ⟨h 0 (Nat.succ_pos n) s rfl,
    fun j hj v hv => h (j + 1) (Nat.succ_lt_succ hj) v ((run_succ_of_step hstep j).trans hv)⟩

/-- Timer t, p ticks after its load, at the end of a schedule that leaves it enabled and loaded: the schedule's ticks
move its count through the period, and time it out where there are more of them than its count (R141, R148). -/
theorem run_tmrOf_of_staysLoaded {t : TmrIdx} {evs rest : List Event} {s : State} {p : Nat}
    (hs : s.schedule = evs ++ rest) (hloaded : staysLoaded t evs.length s)
    (hphase : (tmrOf s.block t).val.toNat =
      (tmrOf s.block t).load.toNat - p % ((tmrOf s.block t).load.toNat + 1)) :
    ∃ u, Sys2Proof.core.run evs.length s = .next u ∧
      (tmrOf u.block t).val.toNat = (tmrOf s.block t).load.toNat -
        (p + evs.count (.tick t)) % ((tmrOf s.block t).load.toNat + 1) ∧
      (neverAcked t evs.length s → (tmrOf u.block t).tmo =
        ((tmrOf s.block t).tmo || decide ((tmrOf s.block t).val.toNat < evs.count (.tick t)))) := by
  induction evs generalizing s p with
  | nil => exact ⟨s, rfl, by simpa using hphase, fun _ => by simp⟩
  | cons e evs ih =>
    obtain ⟨s', hstep, hload, hloaded'⟩ := hloaded.first_step
    have hs' : s'.schedule = evs ++ rest := step_schedule_of_cons hs hstep
    have he : chosenEvent s = e := chosenEvent_of_schedule hs
    by_cases htick : e = .tick t
    · have hq : tmrOf s'.block t = tickTmr (tmrOf s.block t) :=
        step_tmrOf_of_tick hstep (he.trans htick) hloaded.enabled
      obtain ⟨u, hrun, hval, htmo⟩ := ih (p := p + 1) hs' hloaded' (by
        rw [hq, tickTmr_load]
        exact tickTmr_val_of_phase hphase)
      refine ⟨u, (run_succ_of_step hstep _).trans hrun, ?_, fun hack => ?_⟩
      · rw [hval, hload, htick, List.count_cons_self, Nat.add_right_comm, Nat.add_assoc]
      · obtain ⟨_, hack'⟩ := hack.first_step hstep
        rw [htmo hack', hq, htick, List.count_cons_self, tickTmr_tmo_or]
    · obtain ⟨hv, hflag⟩ := step_tmrOf_of_ne_tick hstep (he ▸ htick) hloaded.enabled hloaded'.enabled
      obtain ⟨u, hrun, hval, htmo⟩ := ih (p := p) hs' hloaded' (by rw [hv, hload, hphase])
      refine ⟨u, (run_succ_of_step hstep _).trans hrun, ?_, fun hack => ?_⟩
      · rw [hval, hload, List.count_cons_of_ne htick]
      · obtain ⟨hnoAck, hack'⟩ := hack.first_step hstep
        rw [htmo hack', hflag hnoAck, hv, List.count_cons_of_ne htick]

/-! ## What any agent's event leaves of a count -/

/-- An HPL32 step leaves the block as it is, or makes one register write (R182, R184). -/
theorem hostExec_block {s t : State} (h : hostExec s = .next t) :
    t.block = s.block ∨ ∃ r data, t.block = writeRegister data s.block r := by
  obtain ⟨_, w, _, _, h1⟩ | ⟨_, w, _, _, _, h1⟩ | ⟨_, _, h1⟩ | ⟨_, h1⟩ := hostExec_cases s <;> rw [h1] at h
  · exact (exec_block h).imp_right fun ⟨_, r, data, _, hb⟩ => ⟨r, data, hb⟩
  · exact .inl (by rw [← Host.Outcome.next.inj h])
  · exact .inl (by rw [← Host.Outcome.next.inj h, recordFault_block])
  · exact .inl (by rw [← Host.Outcome.next.inj h])

/-- A step of a bus master makes one register write at most where its own work does; held back, it makes none (R62). -/
theorem masterStep_block (k : State → Result) {s t : State}
    (hk : ∀ u, k s = .next u → u.block = s.block ∨ ∃ r data, u.block = writeRegister data s.block r)
    (h : masterStep k s = .next t) : t.block = s.block ∨ ∃ r data, t.block = writeRegister data s.block r := by
  obtain ⟨_, _, h1⟩ | ⟨_, h1⟩ := masterStep_cases k s <;> rw [h1] at h
  · exact hk t h
  · exact .inl (by rw [← Host.Outcome.next.inj h])

/-- A step of the Host or of its bus leaves the block as it is, or is one register write (R60 (c), R62). -/
theorem runEvent_block_of_host {e : Event} {s t : State} (h : runEvent e s = .next t)
    (he : isHostEvent e = true ∨ e = .deliver) :
    t.block = s.block ∨ ∃ r data, t.block = writeRegister data s.block r := by
  cases e with
  | reset => simp [isHostEvent] at he
  | convDone n => simp [isHostEvent] at he
  | tick u => simp [isHostEvent] at he
  | deliver =>
    obtain ⟨w, ws, fenced, _, h1⟩ | ⟨_, h1⟩ := deliverOldest_cases s <;> rw [← Host.Outcome.next.inj h, h1]
    · exact .inr ⟨w.reg, w.data, rfl⟩
    · exact .inl rfl
  | hostExec =>
    obtain ⟨_, h1⟩ | ⟨_, h1⟩ := hplStep_cases hostExec s
    · exact hostExec_block (h1.symm.trans h)
    · exact .inl (by rw [← Host.Outcome.next.inj (h1.symm.trans h)])
  | hostIrq =>
    refine .inl ?_
    obtain ⟨_, u, _, h1⟩ | ⟨_, _, h1⟩ | ⟨_, _, h1⟩ | ⟨_, _, h1⟩ := hostIrq_cases s <;>
      rw [← Host.Outcome.next.inj (h1.symm.trans h)]
    exact takeHostTrap_block s
  | hostReturn =>
    refine masterStep_block (fun v => .next (returnHostTrap v)) (fun u hu => .inl ?_) h
    rw [← Host.Outcome.next.inj hu, returnHostTrap_block]
  | hostBarrier =>
    refine masterStep_block (fun v => .next { v with bus := raiseFence v.bus }) (fun u hu => .inl ?_) h
    rw [← Host.Outcome.next.inj hu]
  | access r =>
    refine masterStep_block (runRequest r) (fun u hu => ?_) h
    obtain ⟨d, data, hd⟩ := runRequest_next hu
    exact (hostAccess_block hd).imp_right fun ⟨r, v, _, _, hb⟩ => ⟨r, v, hb⟩

/-- No register write moves the count of an enabled timer (R133). -/
theorem tmrOf_writeRegister_val_of_enabled {data : Word} {b : Block} {r : Reg} {t : TmrIdx}
    (h : (tmrOf b t).en = true) : (tmrOf (writeRegister data b r) t).val = (tmrOf b t).val := by
  obtain hq | ⟨_, hq⟩ | ⟨_, _, hq⟩ | ⟨_, hq⟩ := tmrOf_writeRegister_cases data b r t <;> rw [hq]
  · exact controlTmr_val_of_enabled h
  · rfl

/-- No event but its own tick moves the count of a timer that stays enabled, whatever the agent (R133, R140). -/
theorem runEvent_tmrOf_val_of_ne_tick {e : Event} {s u : State} {t : TmrIdx} (h : runEvent e s = .next u)
    (he : e ≠ .tick t) (hen : (tmrOf s.block t).en = true) (hen' : (tmrOf u.block t).en = true) :
    (tmrOf u.block t).val = (tmrOf s.block t).val := by
  have hhost (hhe : isHostEvent e = true ∨ e = .deliver) : (tmrOf u.block t).val = (tmrOf s.block t).val := by
    obtain hb | ⟨r, data, hb⟩ := runEvent_block_of_host h hhe <;> rw [hb]
    exact tmrOf_writeRegister_val_of_enabled hen
  cases e with
  | reset =>
    rw [← Host.Outcome.next.inj h] at hen'
    simp [platformReset] at hen'
  | convDone n =>
    obtain ⟨_, h1⟩ | ⟨_, h1⟩ := convDone_cases n s <;> rw [← Host.Outcome.next.inj h, h1]
    rw [tmrOf_setSeq]
  | tick v =>
    have htv : t ≠ v := fun htv => he (htv ▸ rfl)
    obtain ⟨_, h1⟩ | ⟨_, h1⟩ := clockTick_cases v s <;> rw [← Host.Outcome.next.inj h, h1]
    rw [setBlock_block, tmrOf_setTmr, if_neg htv]
  | deliver => exact hhost (.inr rfl)
  | hostExec | hostIrq | hostReturn | hostBarrier | access r => exact hhost (.inl rfl)

/-- The event of its own tick is one tick of an enabled timer, whatever the host (R140). -/
theorem runEvent_tmrOf_of_tick {s u : State} {t : TmrIdx} (h : runEvent (.tick t) s = .next u)
    (hen : (tmrOf s.block t).en = true) : tmrOf u.block t = tickTmr (tmrOf s.block t) := by
  rw [← Host.Outcome.next.inj h, tmrOf_clockTick_of_enabled hen]

section

/-! A timer that stays enabled through a run from its event k on, and whose ticks find no count of 0. -/

variable {ev : Nat → Event} {r : Nat → State} {t : TmrIdx} {k : Nat} (hrun : isEventRun ev r)
  (hen : ∀ j, k ≤ j → (tmrOf (r j).block t).en = true)
  (hnonzero : ∀ j, k ≤ j → ev j = .tick t → (tmrOf (r j).block t).val ≠ 0#32)

include hrun hen hnonzero

/-- Each tick of it lowers the count. -/
theorem count_lt_of_tick {j : Nat} (hj : k ≤ j) (he : ev j = .tick t) :
    (tmrOf (r (j + 1)).block t).val.toNat < (tmrOf (r j).block t).val.toNat := by
  have hstep : runEvent (.tick t) (r j) = .next (r (j + 1)) := he ▸ hrun j
  rw [runEvent_tmrOf_of_tick hstep (hen j hj)]
  obtain ⟨hzero, _⟩ | ⟨v, hv, hq⟩ := tickTmr_cases (tmrOf (r j).block t)
  · exact absurd (BitVec.eq_of_toNat_eq hzero) (hnonzero j hj he)
  · rw [hq, ← hv]
    exact Nat.lt_succ_self _

/-- No event raises the count. -/
theorem count_le_of_le {i j : Nat} (hi : k ≤ i) (hij : i ≤ j) :
    (tmrOf (r j).block t).val.toNat ≤ (tmrOf (r i).block t).val.toNat := by
  induction j, hij using Nat.le_induction with
  | base => exact Nat.le_refl _
  | succ j hij ih =>
    have hj : k ≤ j := hi.trans hij
    by_cases he : ev j = .tick t
    · exact (count_lt_of_tick hrun hen hnonzero hj he).le.trans ih
    · rw [runEvent_tmrOf_val_of_ne_tick (hrun j) he (hen j hj) (hen (j + 1) (Nat.le_succ_of_le hj))]
      exact ih

/-- Under FAIR_TICK its ticks would lower the count without end (R150). -/
theorem not_fairTick_of_nonzero : ¬ fairTick ev r := by
  intro hfair
  have hdescent : ∀ n j, k ≤ j → (tmrOf (r j).block t).val.toNat ≠ n := by
    intro n
    induction n using Nat.strong_induction_on with
    | _ n ih =>
      rintro j hj rfl
      obtain ⟨i, hi, he⟩ := hfair t j fun m hm => hen m (hj.trans hm)
      have hki : k ≤ i := hj.trans hi
      have hlt := count_lt_of_tick hrun hen hnonzero hki he
      have hle := count_le_of_le hrun hen hnonzero hj hi
      exact ih _ (hlt.trans_le hle) (i + 1) (Nat.le_succ_of_le hki) rfl
  exact hdescent _ k (Nat.le_refl k) rfl

end

/-! ## The statements of the timers -/

/-- Settles O57: were no tick to find a count of 0, the count would fall without end under FAIR_TICK; the tick that finds
it times out. -/
theorem fairClockKeepsTimingOut : Obligations.FairClockKeepsTimingOut := by
  intro ev r hrun hfair t k hen
  by_contra hnever
  refine not_fairTick_of_nonzero hrun hen (fun j hj he hzero => hnever ⟨j, hj, he, hzero, ?_⟩) hfair
  have hstep : runEvent (.tick t) (r j) = .next (r (j + 1)) := he ▸ hrun j
  rw [runEvent_tmrOf_of_tick hstep (hen j hj), tickTmr_tmo, hzero]
  simp

/-- Settles O30: a timer just loaded is in phase 0 of its period. -/
theorem periodIsLoadPlusOneTicks : Obligations.PeriodIsLoadPlusOneTicks := by
  intro t evs rest s hs hfull hloaded k
  obtain ⟨u, hrun, hval, htmo⟩ := run_tmrOf_of_staysLoaded (p := 0) hs hloaded (by simp [hfull])
  refine ⟨u, hrun, ?_, fun hack => ?_⟩
  · rwa [Nat.zero_add] at hval
  · rw [htmo hack, hfull]
    rfl

/-- Settles O29: the Clock's step in its two cases, and of an enabled timer a tick in its two. -/
theorem tickCountsDownOrTimesOut : Obligations.TickCountsDownOrTimesOut := by
  intro s t hu he
  rw [step_of_tick hu he]
  obtain ⟨hen, hc⟩ | ⟨hdis, hc⟩ := clockTick_cases t (afterChoice s) <;> rw [hc]
  · rw [afterChoice_block] at hen ⊢
    refine ⟨fun _ => ⟨_, rfl, ?_, fun u hut => ?_, fun n => seqOf_setTmr _ _ t n, setTmr_tcCode _ _ t⟩, fun h => ?_⟩
    · rw [tmrOf_setTmr, if_pos rfl]
      exact tickTmr_cases (tmrOf s.block t)
    · rw [tmrOf_setTmr, if_neg hut]
    · rw [hen] at h
      cases h
  · rw [afterChoice_block] at hdis
    refine ⟨fun h => ?_, fun _ => rfl⟩
    rw [hdis] at h
    cases h

/-- Settles O25: the write rule of TMR_CTL, timer by timer. -/
theorem controlWriteSetsEnables : Obligations.ControlWriteSetsEnables :=
  fun data s => ⟨decodeAccess_descOf true .tmrCtl data, writeTmrCtl data s.block, exec_writeInstr .tmrCtl data s,
    tmrOf_writeTmrCtl data s.block, seqOf_mapTmrs s.block _, mapTmrs_tcCode s.block _⟩

/-- Settles O26: the read rules of TMR_CTL and TMR_STAT, bit by bit. -/
theorem timerStatusShowsItsFlags : Obligations.TimerStatusShowsItsFlags := by
  intro data s
  refine ⟨decodeAccess_descOf false .tmrCtl data, decodeAccess_descOf false .tmrStat data, tmrCtlWord s.block,
    tmrStatWord s.block, exec_readInstr .tmrCtl s, exec_readInstr .tmrStat s, fun t => ?_, fun k hlo hmid => ?_⟩
  · rw [tmrCtlWord_eq, tmrStatWord_eq]
    obtain ⟨hen, hie⟩ := getLsbD_timerFlagsWord (fun t => (tmrOf s.block t).en) (fun t => (tmrOf s.block t).ie) t
    obtain ⟨hto, hirq⟩ := getLsbD_timerFlagsWord (fun t => (tmrOf s.block t).tmo) (irqLevel s.block) t
    exact ⟨hen, hie, hto, hirq, rfl⟩
  · rw [tmrCtlWord_eq, tmrStatWord_eq]
    exact ⟨getLsbD_timerFlagsWord_eq_false _ _ hlo hmid, getLsbD_timerFlagsWord_eq_false _ _ hlo hmid⟩

/-- Settles O27: the write rule of TMR_CLR, timer by timer. -/
theorem acknowledgeDropsTheNamedTimeouts : Obligations.AcknowledgeDropsTheNamedTimeouts :=
  fun data s => ⟨decodeAccess_descOf true .tmrClr data, writeTmrClr data s.block, exec_writeInstr .tmrClr data s,
    tmrOf_writeTmrClr data s.block, seqOf_mapTmrs s.block _, mapTmrs_tcCode s.block _⟩

/-- Settles O28: each register's descriptor, and its write or read rule. -/
theorem timerLoadsAndCounts : Obligations.TimerLoadsAndCounts := by
  intro data s
  refine ⟨?_, exec_writeInstr .tmrLoad0 data s, exec_writeInstr .tmrLoad1 data s, exec_readInstr .tmrLoad0 s,
    exec_readInstr .tmrLoad1 s, exec_readInstr .tmrVal0 s, exec_readInstr .tmrVal1 s⟩
  simp only [List.forall_mem_cons, List.not_mem_nil, false_imp_iff, implies_true, and_true]
  exact ⟨decodeAccess_descOf true .tmrLoad0 data, decodeAccess_descOf true .tmrLoad1 data,
    decodeAccess_descOf false .tmrLoad0 data, decodeAccess_descOf false .tmrLoad1 data,
    decodeAccess_descOf false .tmrVal0 data, decodeAccess_descOf false .tmrVal1 data⟩

end Sys2Proof.Machine
end

section
/-! SUPPORT. The temperature converter (42_tempconv.md): rounding toward zero, the two conversion functions in the two
signs of their dividends, and the words that the host reads. With it the statements of the converter are settled. -/

namespace Sys2Proof.Machine

/-! ## Rounding toward zero (R10) -/

theorem trunc0_of_nonneg {a : Int} (b : Nat) (ha : 0 ≤ a) : trunc0 a b = a / b := by
  obtain ⟨n, rfl⟩ := Int.eq_ofNat_of_zero_le ha
  rcases Nat.eq_zero_or_pos n with rfl | hn
  · simp [trunc0]
  · simp [trunc0, Int.sign_natCast_of_ne_zero hn.ne']

theorem trunc0_neg (a : Int) (b : Nat) : trunc0 (-a) b = -trunc0 a b := by
  simp [trunc0]

theorem trunc0_of_nonpos {a : Int} (b : Nat) (ha : a ≤ 0) : trunc0 a b = -(-a / b) := by
  rw [← trunc0_of_nonneg b (Int.neg_nonneg_of_nonpos ha), trunc0_neg, Int.neg_neg]

/-- The spec's own formula by sign and magnitude is the library's truncated quotient. -/
theorem trunc0_eq_tdiv (a : Int) (b : Nat) : trunc0 a b = Int.tdiv a b := by
  rcases Int.le_total 0 a with ha | ha
  · rw [trunc0_of_nonneg b ha, Int.tdiv_eq_ediv_of_nonneg ha]
  · have hneg : 0 ≤ -a := Int.neg_nonneg_of_nonpos ha
    rw [trunc0_of_nonpos b ha, ← Int.tdiv_eq_ediv_of_nonneg hneg, Int.neg_tdiv, Int.neg_neg]

/-! ## Celsius (R160) -/

theorem celsius_eq_tdiv (r : RawCode) : celsius r = Int.tdiv (1208320 - 495 * (r.toNat : Int)) 8192 :=
  trunc0_eq_tdiv _ _

/-- The Celsius dividend is positive up to the code 2441. -/
theorem celsius_of_le {r : RawCode} (hr : r.toNat ≤ 2441) : celsius r = (1208320 - 495 * (r.toNat : Int)) / 8192 :=
  trunc0_of_nonneg 8192 (by omega)

/-- The Celsius dividend is negative from the code 2442 on. -/
theorem celsius_of_lt {r : RawCode} (hr : 2441 < r.toNat) :
    celsius r = -(-(1208320 - 495 * (r.toNat : Int)) / 8192) :=
  trunc0_of_nonpos 8192 (by omega)

theorem celsius_le_celsius {a b : RawCode} (hab : a ≤ b) : celsius b ≤ celsius a := by
  have htoNat : a.toNat ≤ b.toNat := hab
  rw [celsius_eq_tdiv, celsius_eq_tdiv]
  exact Int.tdiv_le_tdiv (by decide) (by omega)

/-- The range ends at the two ends of the codes. -/
theorem celsius_mem_range (r : RawCode) : -99 ≤ celsius r ∧ celsius r ≤ 147 := by
  have hlow : celsius 4095#12 = -99 := by decide
  have hhigh : celsius 0#12 = 147 := by decide
  rw [← hlow, ← hhigh]
  exact ⟨celsius_le_celsius (BitVec.le_def.mpr (Nat.le_of_lt_succ r.isLt)),
    celsius_le_celsius (BitVec.le_def.mpr (Nat.zero_le _))⟩

/-- A code whose Celsius value is c: the solution r of 1208320 - 495 r = 8192 c, rounded down for c from 0 on and up
below 0, so that the dividend is 8192 c or up to 494 further from 0 and truncation finds c again. -/
def codeAtCelsius (c : Int) : RawCode :=
  BitVec.ofInt 12 (if 0 ≤ c then (1208320 - 8192 * c) / 495 else -((8192 * c - 1208320) / 495))

theorem celsius_codeAtCelsius {c : Int} (hlow : -99 ≤ c) (hhigh : c ≤ 147) : celsius (codeAtCelsius c) = c := by
  by_cases hc : 0 ≤ c
  · have hr : ((codeAtCelsius c).toNat : Int) = (1208320 - 8192 * c) / 495 := by
      simp only [codeAtCelsius, if_pos hc, BitVec.toNat_ofInt]
      omega
    rw [celsius_of_le (by omega)]
    omega
  · have hr : ((codeAtCelsius c).toNat : Int) = -((8192 * c - 1208320) / 495) := by
      simp only [codeAtCelsius, if_neg hc, BitVec.toNat_ofInt]
      omega
    rw [celsius_of_lt (by omega)]
    omega

/-! ## Fahrenheit (R161) -/

theorem fahrenheit_eq_tdiv (c : Int) : fahrenheit c = Int.tdiv (9 * c + 160) 5 := trunc0_eq_tdiv _ _

theorem fahrenheit_of_nonneg {c : Int} (hc : 0 ≤ 9 * c + 160) : fahrenheit c = (9 * c + 160) / 5 :=
  trunc0_of_nonneg 5 hc

theorem fahrenheit_of_neg {c : Int} (hc : 9 * c + 160 < 0) : fahrenheit c = -(-(9 * c + 160) / 5) :=
  trunc0_of_nonpos 5 hc.le

/-- Two dividends 9 apart can lie within the 9 dividends that truncate to 0, but those on either side of 0 are -2 and 7,
and 7 / 5 is 1. -/
theorem fahrenheit_strictMono : StrictMono fahrenheit := by
  intro c d hcd
  rcases lt_or_ge (9 * d + 160) 0 with hd | hd
  · rw [fahrenheit_of_neg hd, fahrenheit_of_neg (by omega)]
    omega
  · rw [fahrenheit_of_nonneg hd]
    rcases lt_or_ge (9 * c + 160) 0 with hc | hc
    · rw [fahrenheit_of_neg hc]
      omega
    · rw [fahrenheit_of_nonneg hc]
      omega

theorem fahrenheit_celsius_mem_range (r : RawCode) :
    -146 ≤ fahrenheit (celsius r) ∧ fahrenheit (celsius r) ≤ 296 := by
  have hlow : fahrenheit (-99) = -146 := by decide
  have hhigh : fahrenheit 147 = 296 := by decide
  obtain ⟨hge, hle⟩ := celsius_mem_range r
  rw [← hlow, ← hhigh]
  exact ⟨fahrenheit_strictMono.monotone hge, fahrenheit_strictMono.monotone hle⟩

/-- The Fahrenheit dividend is negative exactly from -18 degrees Celsius down, the code 2739 on. -/
theorem fahrenheit_dividend_neg_iff (r : RawCode) : 9 * celsius r + 160 < 0 ↔ 2739 ≤ r.toNat := by
  rcases Nat.lt_or_ge 2441 r.toNat with hr | hr
  · rw [celsius_of_lt hr]
    omega
  · rw [celsius_of_le hr]
    omega

/-! ## The words of the converter (R162 to R165) -/

/-- sext_32 loses nothing of an integer in the signed range of a word (R45, R46). -/
theorem toInt_sextResult {v : Int} (hlow : -2 ^ 31 ≤ v) (hhigh : v < 2 ^ 31) : (sextResult v).toInt = v :=
  BitVec.toInt_ofInt_eq_self (by decide) hlow hhigh

theorem toInt_readTcCel (b : Block) : (readTcCel b).toInt = celsius b.tcCode := by
  obtain ⟨hlow, hhigh⟩ := celsius_mem_range b.tcCode
  exact toInt_sextResult (by omega) (by omega)

theorem toInt_readTcFah (b : Block) : (readTcFah b).toInt = fahrenheit (celsius b.tcCode) := by
  obtain ⟨hlow, hhigh⟩ := fahrenheit_celsius_mem_range b.tcCode
  exact toInt_sextResult (by omega) (by omega)

/-- In any state the two temperature reads answer the truncated quotients at the code as it stands (R164, R165,
R170). -/
theorem temperatureReads_answer_quotients (s : State) : ∃ c f : Word,
    exec .rdTcCel s = .next { s with resp := some (.readData c) } ∧
    exec .rdTcFah s = .next { s with resp := some (.readData f) } ∧
    c.toInt = Int.tdiv (1208320 - 495 * (s.block.tcCode.toNat : Int)) 8192 ∧
    f.toInt = Int.tdiv (9 * c.toInt + 160) 5 := by
  refine ⟨readTcCel s.block, readTcFah s.block, exec_readInstr .tcCel s, exec_readInstr .tcFah s, ?_, ?_⟩
  · rw [toInt_readTcCel, celsius_eq_tdiv]
  · rw [toInt_readTcFah, toInt_readTcCel, fahrenheit_eq_tdiv]

/-! ## The statements of the converter -/

/-- Settles O34: the two descriptors, and the two reads in any state. -/
theorem temperaturesAreTheTruncatedQuotients : Obligations.TemperaturesAreTheTruncatedQuotients :=
  fun data s => ⟨decodeAccess_descOf false .tcCel data, decodeAccess_descOf false .tcFah data,
    temperatureReads_answer_quotients s⟩

/-- Settles O35: the write leaves the new code in the block, and the two reads depend on the code alone. -/
theorem converterHasNoLatency : Obligations.ConverterHasNoLatency := by
  intro data s
  obtain ⟨c, f, hreads⟩ := temperatureReads_answer_quotients (answerWrite (writeTcCode data s.block) s)
  exact ⟨c, f, _, exec_writeInstr .tcCode data s, hreads⟩

/-- Settles O36: Celsius falls with the code, and Fahrenheit rises with Celsius. -/
theorem temperaturesFallWithTheCode : Obligations.TemperaturesFallWithTheCode :=
  fun _ _ hab => ⟨celsius_le_celsius hab, fahrenheit_strictMono.monotone (celsius_le_celsius hab)⟩

/-- Settles O37: each Celsius value of the range has its code, and Fahrenheit is strictly monotone in Celsius. -/
theorem temperatureRanges : Obligations.TemperatureRanges := by
  refine ⟨fun c => ⟨?_, ?_⟩, fahrenheit_celsius_mem_range, fun _ _ hf => fahrenheit_strictMono.injective hf⟩
  · rintro ⟨r, rfl⟩
    exact celsius_mem_range r
  · rintro ⟨hlow, hhigh⟩
    exact ⟨codeAtCelsius c, celsius_codeAtCelsius hlow hhigh⟩

/-- Settles O33: the descriptors, the write rule and the read rule of TC_CODE. -/
theorem converterCodeIsTwelveBits : Obligations.ConverterCodeIsTwelveBits := by
  intro data s
  refine ⟨decodeAccess_descOf true .tcCode data, decodeAccess_descOf false .tcCode data,
    exec_writeInstr .tcCode data s, ?_⟩
  rw [← zextCode_eq_append]
  exact exec_readInstr .tcCode s

/-- Settles O38: the quotient is the floor of a dividend that is not negative, and the negated floor of the negated
dividend otherwise. -/
theorem fahrenheitTruncatesTowardZero : Obligations.FahrenheitTruncatesTowardZero := by
  intro r m
  have hfloor : Int.fdiv m 5 = m / 5 := Int.fdiv_eq_ediv_of_nonneg m (by decide)
  rw [hfloor]
  refine ⟨fahrenheit_dividend_neg_iff r, fahrenheit_of_nonneg, fun hm => ?_⟩
  rw [fahrenheit_of_neg hm]
  change -(-m / 5) = _
  split <;> omega

end Sys2Proof.Machine
end

section
/-! SUPPORT. The HPL32 host (43_host_harness.md): what each of its instructions does, which steps it has, and what a
step can make of its program, its halt and its recorded fault. With it the statements of the harness are settled. -/

namespace Sys2Proof.Machine

/-! ## Operands, results and the pc -/

theorem withOperand_of_written {rs : RegIdx} (k : Word → State) {s : State} (h : s.host.regs[rs].written = true) :
    withOperand rs k s = k s.host.regs[rs].val := by
  obtain ⟨_, hk⟩ | ⟨hw, _⟩ := withOperand_cases rs k s
  · exact hk
  · exact absurd (hw.symm.trans h) Bool.false_ne_true

theorem withOperand_of_unwritten {rs : RegIdx} (k : Word → State) {s : State} (h : s.host.regs[rs].written = false) :
    withOperand rs k s = recordFault (.unwrittenRegister s.host.pc rs) s := by
  obtain ⟨hw, _⟩ | ⟨_, hf⟩ := withOperand_cases rs k s
  · exact absurd (h.symm.trans hw) Bool.false_ne_true
  · exact hf

/-- Loading a register and going on changes that register and the pc alone (R180, R181). -/
theorem exec_loads {i : Instr} {rd : RegIdx} {v : Word} {s : State}
    (h : exec i s = .next (advancePc (writeReg rd v s))) :
    ∃ regs, exec i s = .next { s with host := { s.host with regs := regs, pc := s.host.pc + 1 } } ∧
      regs[rd] = { val := v, written := true } ∧ ∀ j, j ≠ rd → regs[j] = s.host.regs[j] := by
  have hregs (j : RegIdx) : (writeReg rd v s).host.regs[j] =
      if j = rd then { val := v, written := true } else s.host.regs[j] := regOf_writeReg rd j v s
  exact ⟨(writeReg rd v s).host.regs, h, (hregs rd).trans (if_pos rfl), fun j hj => (hregs j).trans (if_neg hj)⟩

/-- The word of an integer sum: the register's number plus the immediate's, modulo 2^32 (R79, R187). -/
theorem natCast_toNat_add_sextImm (a : Word) (imm : Imm) :
    ((a + sextImm imm).toNat : Int) = ((a.toNat : Int) + imm.toInt) % 4294967296 := by
  have hsext : ((sextImm imm).toNat : Int) % 4294967296 = imm.toInt % 4294967296 := by
    rw [← BitVec.toInt_signExtend_of_le (x := imm) (v := 32) (by decide), BitVec.toInt_eq_toNat_bmod]
    exact Int.bmod_emod.symm
  rw [BitVec.toNat_add]
  omega

/-- zext_32(IMM) is IMM below ten zero bits (R79). -/
theorem zextImm_eq_append (imm : Imm) : zextImm imm = 0#10 ++ imm :=
  BitVec.setWidth_eq_append (by decide)

/-! ## The bus accesses of HPL32 -/

/-- RD of a register's offset loads that register's word (R183). -/
theorem exec_rd_offset (rd : RegIdx) (r : Reg) (s : State) :
    exec (.rd rd r.offset) s = .next (advancePc (writeReg rd (readRegister s.block r) s)) := by
  simp [exec, execRd, busRead]

/-- On a bus that posts no write a write has reached the block as it completes (R60 (c)). -/
theorem putWrite_of_direct (data : Word) (r : Reg) {s : State} (h : s.bus = .direct) :
    putWrite data r s = setBlock (writeRegister data s.block r) s := by
  simp [putWrite, h]

/-- WR of a written register to a register's offset completes that register's write (R184). -/
theorem exec_wr_offset {rs : RegIdx} {s : State} (h : s.host.regs[rs].written = true) (r : Reg) :
    exec (.wr r.offset rs) s = .next (advancePc (putWrite s.host.regs[rs].val r s)) := by
  simp [exec, execWr, withOperand_of_written _ h, busWrite]

theorem exec_wr_of_unwritten {rs : RegIdx} {s : State} (h : s.host.regs[rs].written = false) (off : Offset) :
    exec (.wr off rs) s = .next (recordFault (.unwrittenRegister s.host.pc rs) s) :=
  congrArg Host.Outcome.next (withOperand_of_unwritten _ h)

/-- The kind of bus error at an offset that no register has: ALIGN is tested first (R72). -/
theorem checkOffset_of_unmapped {off : Offset} (h : ∀ r : Reg, r.offset ≠ off) :
    checkOffset off = .error (if off.extractLsb' 0 2 = 0#2 then .unmapped else .align) := by
  obtain ⟨r, hc, _⟩ | ⟨hc, ha⟩ | ⟨hc, ha, _⟩ := checkOffset_cases off
  · exact absurd (offset_of_checkOffset hc) (h r)
  · rw [hc, if_neg ha]
  · rw [hc, if_pos ha]

theorem exec_rd_of_busError {off : Offset} {kind : BusErrorKind} (h : checkOffset off = .error kind) (rd : RegIdx)
    (s : State) : exec (.rd rd off) s = .next (recordBusError off kind s) := by
  simp [exec, execRd, busRead, h]

theorem exec_wr_of_busError {off : Offset} {kind : BusErrorKind} (h : checkOffset off = .error kind) {rs : RegIdx}
    {s : State} (hw : s.host.regs[rs].written = true) :
    exec (.wr off rs) s = .next (recordBusError off kind s) := by
  simp [exec, execWr, withOperand_of_written _ hw, busWrite, h]

/-- No bus error of a word data access is FETCH or SIZE (R198). -/
theorem kind_of_checkOffset_error {off : Offset} {kind : BusErrorKind} (h : checkOffset off = .error kind) :
    kind = .align ∨ kind = .unmapped := by
  obtain ⟨r, hc, _⟩ | ⟨hc, _⟩ | ⟨hc, _⟩ := checkOffset_cases off <;> rw [hc] at h <;> cases h
  · exact .inl rfl
  · exact .inr rfl

/-! ## Illegal words (R81, R195) -/

/-- A word decodes to an illegal instruction only as itself, and only where R81 calls it illegal. -/
theorem decodeHpl_eq_illegal {w v : Word} (h : decodeHpl w = .illegal v) : w = v ∧ isIllegalWord w = true := by
  have hr := isReading_decodeHpl w
  have henc := hr.encode_eq
  rw [h] at henc
  obtain rfl : v = w := Code.word.inj henc
  exact ⟨rfl, hr.eq_illegal_iff.mp h⟩

/-- The upper part of the immediate is bits 21 to 12 of the word (R78, R79). -/
theorem immHigh_hplImm (w : Word) : immHigh (hplImm w) = w.extractLsb' 12 10 := by
  apply BitVec.eq_of_getLsbD_eq
  intro k hk
  simp [immHigh, hplImm, hk]

/-- A reserved OP, or a field that R80 marks MBZ for the word's OP and that is not zero. -/
def breaksMap (w : Word) : Prop :=
  0xC ≤ (hplOp w).toNat ∨
  (hplRd w ≠ 0#3 ∧ ((hplOp w).toNat = 0x0 ∨ (hplOp w).toNat = 0x2 ∨ 0x6 ≤ (hplOp w).toNat)) ∨
  (hplRs w ≠ 0#3 ∧
    ((hplOp w).toNat = 0x0 ∨ (hplOp w).toNat = 0x1 ∨ (hplOp w).toNat = 0x3 ∨ 0x8 ≤ (hplOp w).toNat)) ∨
  (hplImm w ≠ 0#22 ∧ ((hplOp w).toNat = 0x0 ∨ 0x9 ≤ (hplOp w).toNat)) ∨
  (w.extractLsb' 12 10 ≠ 0#10 ∧ ((hplOp w).toNat = 0x1 ∨ (hplOp w).toNat = 0x2))

/-- Row by row of R80: the decoder's own test of a row is the MBZ test of its OP. -/
theorem decodeHpl_eq_illegal_iff (w : Word) : decodeHpl w = .illegal w ↔ breaksMap w := by
  simp only [decodeHpl, breaksMap, ← immHigh_hplImm]
  split
  case h_13 h0 h1 h2 h3 h4 h5 h6 h7 h8 h9 hA hB =>
    refine iff_of_true rfl (.inl ?_)
    simp only [imp_false] at *
    omega
  all_goals
    next hop => simp [hop, imp_iff_not_or]

/-! ## The steps of the HPL32 host -/

theorem hostActive_eq_true_iff {h : Harness} : hostActive h = true ↔ h.halted = false ∧ h.fault = none := by
  simp [hostActive]

theorem hostActive_eq_false_iff {h : Harness} : hostActive h = false ↔ h.halted = true ∨ h.fault ≠ none := by
  rw [← Bool.not_eq_true, hostActive_eq_true_iff, not_and_or, Bool.not_eq_false]

/-- The choice of the agent takes one entry off the schedule, or one draw where nothing is scheduled (log 3). -/
theorem afterChoice_eq (s : State) :
    afterChoice s =
      { s with
        schedule := s.schedule.tail
        draws := if s.schedule = [] then s.draws + 1 else s.draws } := by
  obtain ⟨block, host, resp, plat, bus, ctx, schedule, draws⟩ := s
  cases schedule <;> rfl

theorem readsWindow_eq_true {i : Instr} (h : readsWindow i = true) : ∃ rd off, i = .rd rd off := by
  cases i
  case rd rd off => exact ⟨rd, off, rfl⟩
  all_goals cases h

/-- A chosen step of R182 (b) is the HPL32 Host's own. -/
theorem step_of_hplHost_exec {s : State} (hh : hplHost s) (he : chosenEvent s = .hostExec) :
    step s = hostExec (afterChoice s) := by
  obtain ⟨hu, hk⟩ := hh
  rw [step_of_uncachedHost hu, he, runEvent, hplStep, afterChoice_plat, hk]

/-- A chosen step of R182 (a) is the entry of HPL32's HOST_TRAP. -/
theorem step_of_hplHost_irq {s : State} (hh : hplHost s) (he : chosenEvent s = .hostIrq) :
    step s = .next { afterChoice s with host := takeTrap hpl32Trap (assertedInputs id s.block) s.host } := by
  obtain ⟨hu, hk⟩ := hh
  rw [step_of_uncachedHost hu, he, runEvent, hostIrq, afterChoice_plat, hk]
  simp [takeInterrupt]

/-- An HPL32 host that is stopped has no step of the Host's, and none ever has a step but the two of R182. -/
theorem runEvent_of_hpl32_without_step {e : Event} {s : State} (hk : s.plat.host = .hpl32) (he : isHostEvent e = true)
    (hno : hostActive s.host = false ∨ (e ≠ .hostExec ∧ e ≠ .hostIrq)) : runEvent e s = .next s := by
  have hmaster (k : State → Result) : masterStep k s = .next s := by simp [masterStep, hk]
  cases e with
  | hostExec =>
    have hstopped : hostActive s.host = false := hno.resolve_right fun h => h.1 rfl
    simp [runEvent, hplStep, hk, hostExec, hstopped]
  | hostIrq =>
    have hstopped : hostActive s.host = false := hno.resolve_right fun h => h.2 rfl
    have hnone : hplTakes s.host (assertedInputs id s.block) = none := by simp [hplTakes, hstopped]
    simp [runEvent, hostIrq, hk, takeInterrupt, takeTrap, hpl32Trap, hnone]
  | hostReturn => simp [runEvent, hmaster]
  | hostBarrier => simp [runEvent, hmaster]
  | access r => simp [runEvent, hmaster]
  | reset => cases he
  | convDone n => cases he
  | tick t => cases he
  | deliver => cases he

/-! ## Interrupt entry (R196) -/

/-- Where entry is enabled HPL32 takes IRQ[0] before IRQ[1] (R196, R218). -/
theorem hplTakes_of_enabled {h : Harness} {b : Block} (ha : hostActive h = true) (hi : h.ien = true)
    (hirq : irqLevel b 0 = true ∨ irqLevel b 1 = true) :
    hplTakes h (assertedInputs id b) = some (if irqLevel b 0 = true then 0 else 1) := by
  cases ht : hplTakes h (assertedInputs id b) with
  | none => exact absurd ⟨ha, hi, hirq⟩ (hplTakes_none.mp ht)
  | some t =>
    obtain ⟨_, _, hline, hfirst⟩ := hplTakes_some ht
    by_cases h0 : t = 0
    · subst h0
      rw [if_pos hline]
    · obtain rfl : t = 1 := Fin.eq_one_of_ne_zero t h0
      rw [if_neg (ne_true_of_eq_false (hfirst rfl))]

/-- VEC_t of the line that is taken. -/
theorem vectorOf_ite (h : Harness) (p : Prop) [Decidable p] :
    vectorOf h (if p then 0 else 1) = if p then h.vec0 else h.vec1 := by
  split <;> rfl

/-! ## What no step changes -/

/-- The program text with its handler entries (R181). -/
def programOf (h : Harness) : List Word × Option Nat × Option Nat := (h.prog, h.vec0, h.vec1)

theorem hplEnter_program (h : Harness) (t : TmrIdx) : programOf (hplEnter h t) = programOf h := by
  obtain ⟨_, _, he⟩ | ⟨_, he⟩ := hplEnter_cases h t <;> rw [he] <;> rfl

/-- No step changes the program text or its handler entries (R64, R181). -/
theorem step_program {s t : State} (h : step s = .next t) : programOf t.host = programOf s.host := by
  obtain hh | ⟨_, _, ⟨_, w, _, hx⟩ | ⟨_, _, rfl⟩ | ⟨_, u, _, rfl⟩⟩ := step_host h
  · rw [hh]
  · have hexec : programOf t.host = programOf (afterChoice s).host :=
      exec_keeps (fun u => programOf u.host) (fun _ _ _ _ _ _ _ _ _ _ _ => rfl) hx
    rw [hexec, afterChoice_host]
  · rw [recordFault_host, afterChoice_host]
    rfl
  · exact hplEnter_program s.host u

/-- No step changes which host drives the block (R227). -/
theorem step_plat {s t : State} (h : step s = .next t) : t.plat = s.plat := by
  obtain ⟨_, hrun⟩ := step_next h
  rw [runEvent_plat hrun, afterChoice_plat]

/-- No step moves a harness that is halted or faulted (R182, R197). -/
theorem step_host_of_stopped {s t : State} (h : step s = .next t) (hstop : hostActive s.host = false) :
    t.host = s.host := by
  obtain hh | ⟨_, ha, _⟩ := step_host h
  · exact hh
  · exact absurd (hstop.symm.trans ha) Bool.false_ne_true

/-! ## What an instruction can do to the halt and the recorded fault -/

/-- The faults that executing an instruction records, each with what the harness then holds (R180, R193, R195, R198). -/
inductive InstrFault (h : Harness) : Instr → HarnessFault → Prop
  | unwrittenRegister {i : Instr} {rs : RegIdx} (hreads : readsRegister rs i) (hw : (regOf h rs).written = false) :
      InstrFault h i (.unwrittenRegister h.pc rs)
  | busFault {i : Instr} {off : Offset} {kind : BusErrorKind}
      (haccess : (∃ rd, i = .rd rd off) ∨ ∃ rs, i = .wr off rs) (hkind : checkOffset off = .error kind) :
      InstrFault h i (.busFault h.pc (hostAddr off) kind)
  | retiOutsideHandler (hv : h.epcValid = false) : InstrFault h .reti (.retiOutsideHandler h.pc)
  | illegalInstruction (w : Word) : InstrFault h (.illegal w) (.illegalInstruction h.pc w)

/-- The harness after an instruction: it goes on as unfaulted and unhalted as it was, or only its halt or its fault is
new (R194, R197). -/
inductive HarnessAfter (i : Instr) (h : Harness) : Harness → Prop
  | goesOn {h' : Harness} (hhalted : h'.halted = h.halted) (hfault : h'.fault = h.fault) : HarnessAfter i h h'
  | halts (hi : i = .halt) : HarnessAfter i h { h with halted := true }
  | faults {f : HarnessFault} (hf : InstrFault h i f) : HarnessAfter i h { h with fault := some f }

/-- An instruction that reads rs first can record that rs is unwritten; otherwise it does what its rest does (R180). -/
theorem harnessAfter_withOperand {i : Instr} {rs : RegIdx} {k : Word → State} {s : State} (hreads : readsRegister rs i)
    (hk : ∀ v, HarnessAfter i s.host (k v).host) : HarnessAfter i s.host (withOperand rs k s).host := by
  obtain ⟨_, h⟩ | ⟨hw, h⟩ := withOperand_cases rs k s <;> rw [h]
  · exact hk _
  · exact .faults (.unwrittenRegister hreads hw)

/-- Every instruction, whichever its unit: only an operand, a bus error, RETI and an illegal word fault, and only HALT
halts (R194, R197). -/
theorem exec_harnessAfter {i : Instr} {s t : State} (h : exec i s = .next t) : HarnessAfter i s.host t.host := by
  cases i
  case halt =>
    rw [← Host.Outcome.next.inj h]
    exact .halts rfl
  case rd rd off =>
    change execRd rd off s = _ at h
    obtain ⟨r, _, hb⟩ | ⟨k, hc, hb⟩ := busRead_cases off s.block <;>
      simp only [execRd, hb, Host.Outcome.next.injEq] at h <;> rw [← h]
    · exact .goesOn rfl rfl
    · exact .faults (.busFault (.inl ⟨rd, rfl⟩) hc)
  case wr off rs =>
    rw [← Host.Outcome.next.inj h]
    refine harnessAfter_withOperand rfl fun v => ?_
    obtain ⟨r, _, hb⟩ | ⟨k, hc, hb⟩ := busWrite_cases off v s <;> rw [hb]
    · exact .goesOn (by simp) (by simp)
    · exact .faults (.busFault (.inr ⟨rs, rfl⟩) hc)
  case andi rd rs imm | addi rd rs imm =>
    rw [← Host.Outcome.next.inj h]
    exact harnessAfter_withOperand rfl fun v => .goesOn rfl rfl
  case bz rs target | bnz rs target =>
    rw [← Host.Outcome.next.inj h]
    exact harnessAfter_withOperand rfl fun v => by split <;> exact .goesOn rfl rfl
  case reti =>
    rw [← Host.Outcome.next.inj h]
    obtain ⟨_, hr⟩ | ⟨hv, hr⟩ := returnFromInterrupt_cases s <;> rw [hr]
    · exact .goesOn rfl rfl
    · exact .faults (.retiOutsideHandler hv)
  case illegal w =>
    rw [← Host.Outcome.next.inj h]
    exact .faults (.illegalInstruction w)
  all_goals
    rw [← Host.Outcome.next.inj h]
    exact .goesOn rfl rfl

/-! ## The recorded fault explained -/

/-- What explains a fault does not depend on the fault already recorded. -/
theorem faultExplained_with_fault {h : Harness} {f : HarnessFault} (g : Option HarnessFault) :
    faultExplained { h with fault := g } f ↔ faultExplained h f := by
  cases f <;> exact Iff.rfl

/-- What an instruction at the pc faults with is explained by that instruction (R180, R193, R195, R198). -/
theorem faultExplained_of_instrFault {h : Harness} {w : Word} {f : HarnessFault} (hw : fetchWord h = some w)
    (hf : InstrFault h (decodeHpl w) f) : faultExplained h f := by
  generalize hi : decodeHpl w = i at hf
  cases hf with
  | unwrittenRegister hreads hwritten => exact ⟨rfl, hwritten, w, hw, hi ▸ hreads⟩
  | busFault haccess hkind =>
    exact ⟨rfl, kind_of_checkOffset_error hkind, _, rfl, hkind, w, hw, hi ▸ haccess⟩
  | retiOutsideHandler hv => exact ⟨rfl, hv, w, hw, hi⟩
  | illegalInstruction v =>
    obtain ⟨rfl, hillegal⟩ := decodeHpl_eq_illegal hi
    exact ⟨rfl, hw, hillegal⟩

theorem hostConsistent_of_host_eq {s t : State} (h : t.host = s.host) (hs : hostConsistent s) : hostConsistent t := by
  rw [hostConsistent, h]
  exact hs

/-- A host that can step has nothing to explain. -/
theorem hostConsistent_of_running {s : State} (hhalted : s.host.halted = false) (hfault : s.host.fault = none) :
    hostConsistent s := by
  simp [hostConsistent, hhalted, hfault]

/-- A fault recorded in a host that could step is the one to explain. -/
theorem hostConsistent_of_fault {s : State} {h : Harness} {f : HarnessFault} (hs : s.host = { h with fault := some f })
    (hhalted : h.halted = false) (hf : faultExplained h f) : hostConsistent s := by
  rw [hostConsistent, hs]
  refine ⟨fun g hg => ⟨hhalted, ?_⟩, fun hh => absurd (hhalted.symm.trans hh) Bool.false_ne_true⟩
  obtain rfl : f = g := Option.some.inj hg
  exact (faultExplained_with_fault _).mpr hf

/-- A halt at a HALT, in a host that could step, leaves no fault. -/
theorem hostConsistent_of_halt {s : State} {h : Harness} (hs : s.host = { h with halted := true })
    (hfault : h.fault = none) (hp : atPc h fun i => i = .halt) : hostConsistent s := by
  rw [hostConsistent, hs]
  refine ⟨fun f hf => ?_, fun _ => hp⟩
  cases hfault.symm.trans hf

/-- An executed word leaves a host that could step consistent: its halt or its fault is its own instruction's. -/
theorem hostConsistent_of_exec {s t : State} {w : Word} (ha : hostActive s.host = true)
    (hw : fetchWord s.host = some w) (h : exec (decodeHpl w) s = .next t) : hostConsistent t := by
  obtain ⟨hhalted, hfault⟩ := hostActive_eq_true_iff.mp ha
  have hafter := exec_harnessAfter h
  generalize ht : t.host = h' at hafter
  cases hafter with
  | goesOn hh hf => exact hostConsistent_of_running (by rw [ht, hh, hhalted]) (by rw [ht, hf, hfault])
  | halts hi => exact hostConsistent_of_halt ht hfault ⟨w, hw, hi⟩
  | faults hf => exact hostConsistent_of_fault ht hhalted (faultExplained_of_instrFault hw hf)

/-- An interrupt entry leaves a host that could step consistent: it goes on, or IEN still stands beside NoVector(t). -/
theorem hostConsistent_of_entry {s t : State} {u : TmrIdx} {b : Block} (ht : t.host = hplEnter s.host u)
    (hu : hplTakes s.host (assertedInputs id b) = some u) : hostConsistent t := by
  obtain ⟨ha, hi, _⟩ := hplTakes_some hu
  obtain ⟨hhalted, hfault⟩ := hostActive_eq_true_iff.mp ha
  obtain ⟨entry, _, he⟩ | ⟨hnone, he⟩ := hplEnter_cases s.host u <;> rw [he] at ht
  · exact hostConsistent_of_running (by rw [ht]; exact hhalted) (by rw [ht]; exact hfault)
  · exact hostConsistent_of_fault ht hhalted ⟨hnone, hi⟩

/-! ## The statements of the harness -/

/-- Settles O49: the program by the Host's instructions and its entry, the platform by every agent, and a stopped host
because it has no step. -/
theorem programAndFaultsAreFixed : Obligations.ProgramAndFaultsAreFixed := by
  intro s t h
  obtain ⟨hprog, hvecs⟩ := Prod.mk.inj (step_program h)
  obtain ⟨hvec0, hvec1⟩ := Prod.mk.inj hvecs
  exact ⟨hprog, hvec0, hvec1, step_plat h, fun hstop => step_host_of_stopped h (hostActive_eq_false_iff.mpr hstop)⟩

/-- Settles O50: a step that moves the harness is the Host's own, from a host that could step, and what it records is
explained by the word it executed, the pc it could not fetch from or the entry it took. -/
theorem recordedFaultsStayExplained : Obligations.RecordedFaultsStayExplained := by
  intro s t hs h
  obtain hh | ⟨_, ha, ⟨_, w, hw, hx⟩ | ⟨_, hnone, rfl⟩ | ⟨_, u, hu, rfl⟩⟩ := step_host h
  · exact hostConsistent_of_host_eq hh hs
  · rw [← afterChoice_host] at ha hw
    exact hostConsistent_of_exec ha hw hx
  · obtain ⟨hhalted, _⟩ := hostActive_eq_true_iff.mp ha
    have hpast : s.host.prog.length ≤ s.host.pc := List.getElem?_eq_none_iff.mp hnone
    have hhost : (recordFault (.pcOutOfRange s.host.pc) (afterChoice s)).host =
        { s.host with fault := some (.pcOutOfRange s.host.pc) } := by
      rw [recordFault_host, afterChoice_host]
    exact hostConsistent_of_fault hhost hhalted ⟨rfl, hpast⟩
  · exact hostConsistent_of_entry (s := s) rfl hu

/-- Settles O5: the decoder's test of each row is R80's, an illegal word is read as itself alone, and it records its
fault. -/
theorem illegalWordsFault : Obligations.IllegalWordsFault := by
  intro w s op rd rs illegal
  refine ⟨(decodeHpl_eq_illegal_iff w).mpr, fun hlegal v hv => ?_, rfl⟩
  obtain ⟨rfl, _⟩ := decodeHpl_eq_illegal hv
  exact hlegal ((decodeHpl_eq_illegal_iff w).mp hv)

/-- Settles O40: RD loads the word of the register's read rule, which is what the read operation answers. -/
theorem rdLoadsTheRegistersWord : Obligations.RdLoadsTheRegistersWord := by
  intro rd r s
  obtain ⟨regs, hexec, hrd, hother⟩ := exec_loads (exec_rd_offset rd r s)
  exact ⟨readRegister s.block r, regs, exec_readInstr r s, hexec, hrd, hother⟩

/-- Settles O41: WR of a written register is that register's write on the host's bus, and of an unwritten one it
records the fault before any access. -/
theorem wrStoresTheOperand : Obligations.WrStoresTheOperand := by
  intro rs s
  refine ⟨fun hw r => ⟨fun hbus => ?_, fun ws fenced hbus => ?_⟩, exec_wr_of_unwritten⟩
  · refine ⟨writeRegister s.host.regs[rs].val s.block r, exec_writeInstr r _ s, ?_⟩
    rw [exec_wr_offset hw, putWrite_of_direct _ r hbus]
    rfl
  · rw [exec_wr_offset hw, putWrite_of_posting _ r hbus]
    rfl

/-- Settles O42: the offset alone decides the bus error, and HPL32 records it. -/
theorem busErrorsFaultTheHarness : Obligations.BusErrorsFaultTheHarness := by
  intro rd rs off s hoff kind faulted
  have hkind : checkOffset off = .error kind := checkOffset_of_unmapped hoff
  exact ⟨exec_rd_of_busError hkind rd s, exec_wr_of_busError hkind⟩

/-- Settles O43: the three words decode, and each result is loaded where its operand is written. -/
theorem immediateOperationsLoadTheirResult : Obligations.ImmediateOperationsLoadTheirResult := by
  intro rd rs imm s loads faults
  rw [← zextImm_eq_append]
  refine ⟨Except.ok.inj (decode_encode (i := .li rd imm) rfl), Except.ok.inj (decode_encode (i := .andi rd rs imm) rfl),
    Except.ok.inj (decode_encode (i := .addi rd rs imm) rfl), exec_loads rfl, fun hw => ⟨?_, ?_⟩, fun hw => ⟨?_, ?_⟩⟩
  · exact exec_loads (congrArg Host.Outcome.next (withOperand_of_written _ hw))
  · exact ⟨s.host.regs[rs].val + sextImm imm, natCast_toNat_add_sextImm _ imm,
      exec_loads (congrArg Host.Outcome.next (withOperand_of_written _ hw))⟩
  · exact congrArg Host.Outcome.next (withOperand_of_unwritten _ hw)
  · exact congrArg Host.Outcome.next (withOperand_of_unwritten _ hw)

/-- Settles O44: the two branches by their operand, and the jump. -/
theorem branchesSetThePc : Obligations.BranchesSetThePc := by
  intro rs target s goes faults
  refine ⟨fun hw => ⟨?_, ?_⟩, fun hw => ⟨congrArg Host.Outcome.next (withOperand_of_unwritten _ hw),
    congrArg Host.Outcome.next (withOperand_of_unwritten _ hw)⟩, rfl⟩
  · refine congrArg Host.Outcome.next ((withOperand_of_written _ hw).trans ?_)
    simp only [BitVec.toNat_eq, BitVec.toNat_ofNat, Nat.zero_mod]
    split <;> rfl
  · refine congrArg Host.Outcome.next ((withOperand_of_written _ hw).trans ?_)
    simp only [ne_eq, BitVec.toNat_eq, BitVec.toNat_ofNat, Nat.zero_mod, ite_not]
    split <;> rfl

/-- Settles O47: the chosen entry is HOST_TRAP's, which takes IRQ[0] first where it is enabled, and else nothing. -/
theorem interruptEntrySavesAndVectors : Obligations.InterruptEntrySavesAndVectors := by
  intro s hh he irq enabled vec
  have htakes (henabled : enabled) :
      hplTakes s.host (assertedInputs id s.block) = some (if irq 0 = true then 0 else 1) := by
    obtain ⟨hhalted, hfault, hien, hirq⟩ := henabled
    exact hplTakes_of_enabled (hostActive_eq_true_iff.mpr ⟨hhalted, hfault⟩) hien hirq
  have hvec : vectorOf s.host (if irq 0 = true then 0 else 1) = vec := vectorOf_ite s.host _
  rw [step_of_hplHost_irq hh he]
  refine ⟨fun henabled entry hentry => ?_, fun henabled hnone => ?_, fun hdisabled => ?_⟩
  · simp [takeTrap, hpl32Trap, htakes henabled, hplEnter, hvec, hentry]
  · simp [takeTrap, hpl32Trap, htakes henabled, hplEnter, hvec, hnone]
  · have hno : hpl32Trap.takes s.host (assertedInputs id s.block) = none := hplTakes_none.mpr fun ⟨ha, hi, hirq⟩ => by
      obtain ⟨hhalted, hfault⟩ := hostActive_eq_true_iff.mp ha
      exact hdisabled ⟨hhalted, hfault, hi, hirq⟩
    rw [takeTrap, hno, ← afterChoice_host]

/-- Settles O7: of an active host with a word at its pc only a waiting RD is held back. -/
theorem stepRunsTheFetchedWord : Obligations.StepRunsTheFetchedWord := by
  intro s w hh he hhalted hfault hword hfree
  refine ⟨?_, afterChoice_eq s⟩
  have ha : hostActive (afterChoice s).host = true := by
    rw [afterChoice_host, hostActive_eq_true_iff]
    exact ⟨hhalted, hfault⟩
  have hw : fetchWord (afterChoice s).host = some w := by rwa [afterChoice_host]
  rw [step_of_hplHost_exec hh he]
  obtain ⟨_, v, hv, _, hx⟩ | ⟨_, v, hv, hwait, hreads, _⟩ | ⟨_, hv, _⟩ | ⟨hstop, _⟩ := hostExec_cases (afterChoice s)
  · obtain rfl : v = w := Option.some.inj (hv.symm.trans hw)
    exact hx
  · obtain rfl : v = w := Option.some.inj (hv.symm.trans hw)
    rw [afterChoice_bus] at hwait
    obtain ⟨rd, off, hi⟩ := readsWindow_eq_true hreads
    exact absurd hi (hfree.resolve_left hwait rd off)
  · cases hv.symm.trans hw
  · cases hstop.symm.trans ha

/-- Settles O13: the chosen step is one that the Host does not have. -/
theorem stoppedHostChangesNothing : Obligations.StoppedHostChangesNothing := by
  intro s hh he hno
  obtain ⟨hu, hk⟩ := hh
  rw [← afterChoice_plat] at hk
  rw [← afterChoice_host, ← or_assoc, ← hostActive_eq_false_iff] at hno
  rw [step_of_uncachedHost hu]
  exact runEvent_of_hpl32_without_step hk he hno

/-- Settles O14: an active host past its program's end fetches no word. -/
theorem fetchPastTheProgramFaults : Obligations.FetchPastTheProgramFaults := by
  intro s hh he hhalted hfault hpast
  have ha : hostActive s.host = true := hostActive_eq_true_iff.mpr ⟨hhalted, hfault⟩
  have hnone : fetchWord s.host = none := List.getElem?_eq_none_iff.mpr hpast
  simp [step_of_hplHost_exec hh he, hostExec, ha, hnone, recordFault]

/-- Settles O45: the three words decode, and each operation writes its own fields. -/
theorem enableDisableAndHalt : Obligations.EnableDisableAndHalt :=
  fun _ => ⟨Except.ok.inj (decode_encode (i := .ei) rfl), Except.ok.inj (decode_encode (i := .di) rfl),
    Except.ok.inj (decode_encode (i := .halt) rfl), rfl, rfl, rfl⟩

/-- Settles O46: the word decodes, and RETI takes one of its two paths by EPC.valid. -/
theorem retiReturnsToTheSavedPc : Obligations.RetiReturnsToTheSavedPc := by
  intro s
  have hexec : exec .reti s = .next (returnFromInterrupt s) := rfl
  rw [hexec]
  refine ⟨Except.ok.inj (decode_encode (i := .reti) rfl), ?_⟩
  obtain ⟨hv, hr⟩ | ⟨hv, hr⟩ := returnFromInterrupt_cases s <;> rw [hr]
  · exact ⟨fun _ => rfl, fun hv' => nomatch hv.symm.trans hv'⟩
  · exact ⟨fun hv' => (nomatch hv.symm.trans hv'), fun _ => rfl⟩

/-- Settles O51: the host at reset has neither halted nor faulted. -/
theorem resetIsConsistent : Obligations.ResetIsConsistent := hostConsistent_of_running rfl rfl

end Sys2Proof.Machine
end

section
/-! SUPPORT. Bus errors and interrupts (60_exceptions.md): the tests of R72 one by one with the reserved offsets of R47,
the answer to a bus error, and what a step can make of IEN and the saved pc. With it the statements of the exceptions are
settled. -/

namespace Sys2Proof.Machine

/-! ## The reserved offsets (R47) -/

/-- The word offsets of the window that R47 reserves: the three gaps of the map and all behind it. -/
def reservedOffset (off : Offset) : Prop :=
  off = 0x00C#12 ∨ off = 0x01C#12 ∨ off = 0x02C#12 ∨ 0x04C#12 ≤ off

theorem offset_aligned (r : Reg) : r.offset.extractLsb' 0 2 = 0#2 := by cases r <;> rfl

theorem not_reservedOffset_offset (r : Reg) : ¬ reservedOffset r.offset := by
  unfold reservedOffset
  cases r <;> decide

/-- The 19 word offsets up to the end of the map, all of them a register's but the three gaps (R47, R48). -/
theorem gap_or_offset_of_lt_mapEnd :
    ∀ k < 19, k = 3 ∨ k = 7 ∨ k = 11 ∨ ∃ r ∈ allRegs, r.offset = BitVec.ofNat 12 (4 * k) := by decide

/-- A word offset that is not reserved is a register's own (R47, R48). -/
theorem exists_offset_eq {off : Offset} (ha : off.extractLsb' 0 2 = 0#2) (hr : ¬ reservedOffset off) :
    ∃ r : Reg, r.offset = off := by
  have hdvd : off.toNat % 4 = 0 := by simpa using congrArg BitVec.toNat ha
  obtain ⟨hC, h1C, h2C, hend⟩ : off.toNat ≠ 0x00C ∧ off.toNat ≠ 0x01C ∧ off.toNat ≠ 0x02C ∧ off.toNat < 0x04C := by
    simpa [reservedOffset, BitVec.toNat_eq, BitVec.le_def] using hr
  obtain ⟨r, _, hoff⟩ : ∃ r ∈ allRegs, r.offset = BitVec.ofNat 12 (4 * (off.toNat / 4)) := by
    have hgap := gap_or_offset_of_lt_mapEnd (off.toNat / 4) (by omega)
    exact ((hgap.resolve_left (by omega)).resolve_left (by omega)).resolve_left (by omega)
  have hword : 4 * (off.toNat / 4) = off.toNat := by omega
  exact ⟨r, by rw [hoff, hword, BitVec.ofNat_toNat, BitVec.setWidth_eq]⟩

/-! ## The tests of a descriptor, in order (R72) -/

/-- Step 2: a fetch that is not a write. -/
theorem decodeAccess_of_fetch {d : Desc} (data : Word) (hw : descWrite d = false) (hx : descFetch d = true) :
    decodeAccess d data = .error (.busError .fetch) := by
  simp [decodeAccess, hw, hx]

/-- Step 3: a data access of a size other than a word. -/
theorem decodeAccess_of_size {d : Desc} (data : Word) (hx : descFetch d = false) (hs : descSize d ≠ 0b10#2) :
    decodeAccess d data = .error (.busError .size) := by
  simp [decodeAccess, hx, hs]

/-- Steps 4 and 5: of a word data access the offset alone decides the kind. -/
theorem decodeAccess_of_checkOffset_error {d : Desc} {k : BusErrorKind} (data : Word) (hx : descFetch d = false)
    (hs : descSize d = 0b10#2) (hk : checkOffset (descOffset d) = .error k) :
    decodeAccess d data = .error (.busError k) := by
  simp [decodeAccess, hx, hs, hk]

/-- A word data access at a register's offset passes every test. -/
theorem decodeAccess_of_offset {d : Desc} {r : Reg} (data : Word) (hx : descFetch d = false)
    (hs : descSize d = 0b10#2) (hr : r.offset = descOffset d) :
    decodeAccess d data = .ok (if descWrite d then writeInstr data r else readInstr r) := by
  simp [decodeAccess, hx, hs, ← hr]

/-! ## The answer to a bus error (R210, R212) -/

/-- The block answers what R72 sends to BusError with the access's address and kind. -/
theorem hostAccess_of_busError {d : Desc} {data : Word} {k : BusErrorKind}
    (h : decodeAccess d data = .error (.busError k)) (s : State) :
    hostAccess d data s = .next (answerBusError (descOffset d) k s) := by
  simp [hostAccess, decode, h]

/-! ## IEN and the saved pc -/

/-- What interrupt entry and return write of a harness besides the pc: IEN, EPC.valid and EPC (R181). -/
def trapState (h : Harness) : Bool × Bool × Nat := (h.ien, h.epcValid, h.epc)

/-- An instruction leaves IEN and the saved pc as they are, or is EI, DI, or a RETI that drops the saved pc (R191 to
R193). -/
theorem exec_trapState {i : Instr} {s t : State} (h : exec i s = .next t) :
    trapState t.host = trapState s.host ∨
    (i = .ei ∧ trapState t.host = (true, s.host.epcValid, s.host.epc)) ∨
    (i = .di ∧ trapState t.host = (false, s.host.epcValid, s.host.epc)) ∨
    (i = .reti ∧ trapState t.host = (true, false, s.host.epc)) := by
  cases i
  case ei =>
    rw [← Host.Outcome.next.inj h]
    exact .inr (.inl ⟨rfl, rfl⟩)
  case di =>
    rw [← Host.Outcome.next.inj h]
    exact .inr (.inr (.inl ⟨rfl, rfl⟩))
  case reti =>
    rw [← Host.Outcome.next.inj h]
    obtain ⟨_, hr⟩ | ⟨_, hr⟩ := returnFromInterrupt_cases s <;> rw [hr]
    · exact .inr (.inr (.inr ⟨rfl, rfl⟩))
    · exact .inl rfl
  case rd rd off =>
    change execRd rd off s = _ at h
    obtain ⟨r, _, hb⟩ | ⟨k, _, hb⟩ := busRead_cases off s.block <;>
      simp only [execRd, hb, Host.Outcome.next.injEq] at h <;> exact .inl (by rw [← h]; rfl)
  case wr off rs =>
    rw [← Host.Outcome.next.inj h]
    refine .inl (withOperand_keeps (fun u => trapState u.host) (fun v => ?_) fun _ => rfl)
    obtain ⟨r, _, hb⟩ | ⟨k, _, hb⟩ := busWrite_cases off v s <;> rw [hb]
    · simp [trapState]
    · rfl
  case andi rd rs imm | addi rd rs imm =>
    rw [← Host.Outcome.next.inj h]
    exact .inl (withOperand_keeps (fun u => trapState u.host) (fun _ => rfl) fun _ => rfl)
  case bz rs target | bnz rs target =>
    rw [← Host.Outcome.next.inj h]
    exact .inl (withOperand_keeps (fun u => trapState u.host) (fun v => by split <;> rfl) fun _ => rfl)
  all_goals
    rw [← Host.Outcome.next.inj h]
    exact .inl rfl

/-- The instruction of the HPL32 Host's own step is the one at its pc (R182). -/
theorem stepInstr_of_fetchWord {s : State} {w : Word} (hk : s.plat.host = .hpl32) (ha : hostActive s.host = true)
    (he : chosenEvent s = .hostExec) (hw : fetchWord s.host = some w) : stepInstr s = some (decodeHpl w) := by
  simp [stepInstr, eventInstr, hk, ha, he, hw]

/-- A step of any agent leaves IEN and the saved pc as they are, or is one of their four writers: EI, DI, RETI, and
interrupt entry from IEN = 1 (R191 to R193, R196). -/
theorem step_trapState {s t : State} (h : step s = .next t) :
    trapState t.host = trapState s.host ∨
    (stepInstr s = some .ei ∧ trapState t.host = (true, s.host.epcValid, s.host.epc)) ∨
    (stepInstr s = some .di ∧ trapState t.host = (false, s.host.epcValid, s.host.epc)) ∨
    (stepInstr s = some .reti ∧ trapState t.host = (true, false, s.host.epc)) ∨
    (chosenEvent s = .hostIrq ∧ s.host.ien = true ∧ trapState t.host = (false, true, s.host.pc)) := by
  obtain hh | ⟨hk, ha, ⟨he, w, hw, hx⟩ | ⟨_, _, rfl⟩ | ⟨he, u, hu, rfl⟩⟩ := step_host h
  · exact .inl (by rw [hh])
  · have hafter := exec_trapState hx
    rw [afterChoice_host] at hafter
    rw [stepInstr_of_fetchWord hk ha he hw]
    obtain hkeep | ⟨hi, ht⟩ | ⟨hi, ht⟩ | ⟨hi, ht⟩ := hafter
    · exact .inl hkeep
    · exact .inr (.inl ⟨congrArg some hi, ht⟩)
    · exact .inr (.inr (.inl ⟨congrArg some hi, ht⟩))
    · exact .inr (.inr (.inr (.inl ⟨congrArg some hi, ht⟩)))
  · refine .inl ?_
    rw [recordFault_host, afterChoice_host]
    rfl
  · obtain ⟨_, hien, _⟩ := hplTakes_some hu
    obtain ⟨entry, _, henter⟩ | ⟨_, henter⟩ := hplEnter_cases s.host u <;> rw [henter]
    · exact .inr (.inr (.inr (.inr ⟨he, hien, rfl⟩)))
    · exact .inl rfl

/-! ## The statements of the exceptions -/

/-- Settles O48: of the writers of IEN and the saved pc only EI and RETI set IEN, and only interrupt entry saves a pc. -/
theorem handlersDoNotNest : Obligations.HandlersDoNotNest := by
  intro s t h
  obtain ht | ⟨hi, ht⟩ | ⟨_, ht⟩ | ⟨hi, ht⟩ | ⟨he, hien, ht⟩ := step_trapState h <;>
    obtain ⟨hien', hvalid', hepc'⟩ : t.host.ien = _ ∧ t.host.epcValid = _ ∧ t.host.epc = _ := by
      simpa only [trapState, Prod.mk.injEq] using ht
  all_goals rw [hien', hvalid', hepc']
  -- Nothing is written: IEN is not set, and a saved pc is the one that stood there.
  · simp +contextual
  -- EI writes IEN alone.
  · simp +contextual [hi]
  -- DI clears IEN.
  · simp +contextual
  -- RETI leaves no saved pc.
  · simp [hi]
  -- Entry clears IEN and saves the pc.
  · simp [he, hien]

/-- Settles O4: each clause is one test of R72 that the tests before it let through, and a word offset that is not
reserved is a register's. -/
theorem descriptorTestsApplyInOrder : Obligations.DescriptorTestsApplyInOrder := by
  intro d data w x size off reserved
  refine ⟨decodeAccess_of_writing_fetch data, decodeAccess_of_fetch data, decodeAccess_of_size data,
    fun hx hs ha => ?_, fun hx hs ha hr => ?_, fun hx hs ha hr => ?_⟩
  · have hno (r : Reg) : r.offset ≠ off := fun h => ha (h ▸ offset_aligned r)
    exact decodeAccess_of_checkOffset_error data hx hs ((checkOffset_of_unmapped hno).trans (by rw [if_neg ha]))
  · have hno (r : Reg) : r.offset ≠ off := fun h => not_reservedOffset_offset r (h ▸ hr)
    exact decodeAccess_of_checkOffset_error data hx hs ((checkOffset_of_unmapped hno).trans (by rw [if_pos ha]))
  · obtain ⟨r, hoff⟩ := exists_offset_eq ha hr
    have hok := decodeAccess_of_offset data hx hs hoff
    exact ⟨_, hok, encode_of_decodeAccess hok⟩

/-- Settles O9: the scheduled access is answered with its bus error, and the rest of the state is not written. -/
theorem busErrorAnswersTheHostOnly : Obligations.BusErrorAnswersTheHostOnly := by
  intro s d data k rest hm hs hd
  calc step s
      = hostAccess d data { s with schedule := rest } := step_of_scheduled_access hm hs
    _ = .next (answerBusError (descOffset d) k { s with schedule := rest }) := hostAccess_of_busError hd _

end Sys2Proof.Machine
end

section
/-! SUPPORT. RESET and the boot sequence (70_reset_and_hazards.md): when a unit's agent has no step, and a bus master's
register write as one event. With it the statements of RESET and of the boot sequence are settled. -/

namespace Sys2Proof.Machine

/-! ## A unit that is idle has no step (R240) -/

/-- A line is asserted for a pending timeout alone (R27). -/
theorem irqLevel_eq_false_of_tmo {b : Block} {t : TmrIdx} (h : (tmrOf b t).tmo = false) : irqLevel b t = false := by
  simp [irqLevel, irqOf, h]

/-- CONV_DONE(n) is not enabled while sequence n is idle (R112). -/
theorem convDone_of_idle {n : SeqIdx} {s : State} (h : (seqOf s.block n).busy = false) : convDone n s = s := by
  simp [convDone, h]

/-- TICK(t) is not enabled while timer t is disabled (R140). -/
theorem clockTick_of_disabled {t : TmrIdx} {s : State} (h : (tmrOf s.block t).en = false) : clockTick t s = s := by
  simp [clockTick, h]

/-- A chosen RESET is the platform's event at the state without the choice (R240). -/
theorem step_of_reset {s : State} (hu : uncachedHost s) (he : chosenEvent s = .reset) :
    step s = .next (platformReset (afterChoice s)) := by
  rw [step_of_uncachedHost hu, he, runEvent]

@[simp] theorem platformReset_host (s : State) : (platformReset s).host = s.host := rfl
@[simp] theorem platformReset_resp (s : State) : (platformReset s).resp = s.resp := rfl
@[simp] theorem platformReset_tcCode (s : State) : (platformReset s).block.tcCode = 0#12 := rfl

@[simp] theorem seqOf_platformReset (s : State) (n : SeqIdx) :
    seqOf (platformReset s).block n = { done := false, busy := false, res := Config.resetRes s.draws n } :=
  seqOf_resetBlock _ _ _ n

@[simp] theorem tmrOf_platformReset (s : State) (t : TmrIdx) :
    tmrOf (platformReset s).block t =
      { en := false
        ie := false
        tmo := false
        load := Config.resetLoad s.draws t
        val := Config.resetVal s.draws t } :=
  tmrOf_resetBlock _ _ _ t

/-! ## The boot writes (R244) -/

/-- A bus master's register write on a bus that posts none is that register's write rule at once (R60 (c), R73). -/
theorem runEvent_writeEvent (r : Reg) (data : Word) {s : State} (hm : s.plat.host = .busMaster)
    (hb : s.bus = .direct) :
    runEvent (writeEvent r data) s = .next (answerWrite (writeRegister data s.block r) s) := by
  have hinstr : eventInstr (writeEvent r data) s = some (writeInstr data r) := by
    simp [writeEvent, eventInstr, hm, hb, hostFenced, decodeAccess_descOf, Except.toOption]
  rw [runEvent_of_eventInstr hb hinstr, exec_writeInstr]

/-- The block after steps 3 to 5 of the boot sequence: LOAD, then the acknowledge, then the enable (R244). -/
def bootBlock (load0 load1 : Word) (b : Block) : Block :=
  writeTmrCtl 0x33#32 (writeTmrClr 0x3#32 (writeTmrLoad1 load1 (writeTmrLoad0 load0 b)))

/-- No write changes the host or its bus, so each of the four reaches the block like the first. -/
theorem runEvents_bootEvents (load0 load1 : Word) {s : State} (hm : s.plat.host = .busMaster) (hb : s.bus = .direct) :
    runEvents (bootEvents load0 load1) s = .next (answerWrite (bootBlock load0 load1 s.block) s) := by
  simp only [bootEvents, runEvents_cons, goOn, runEvent_writeEvent, answerWrite_plat, answerWrite_bus, hm, hb]
  rfl

/-- The two reload writes set LOAD of each timer and nothing else of it (R138, R139). -/
theorem tmrOf_writeTmrLoads (load0 load1 : Word) (b : Block) (t : TmrIdx) :
    tmrOf (writeTmrLoad1 load1 (writeTmrLoad0 load0 b)) t =
      { tmrOf b t with load := if t = 0 then load0 else load1 } := by
  fin_cases t <;> rfl

/-- The words of steps 4 and 5 name both timers: acknowledge, enable and unmask (R244). -/
theorem bootWords_name_both_timers (t : TmrIdx) :
    (0x3#32).getLsbD t.val = true ∧ (0x33#32).getLsbD t.val = true ∧ (0x33#32).getLsbD (4 + t.val) = true := by
  revert t
  decide

/-- A disabled timer, its timeout pending or not, starts from the LOAD just written (R133, R245) with none pending
(R246). -/
theorem tmrOf_bootBlock (load0 load1 : Word) {b : Block} {t : TmrIdx} (hdis : (tmrOf b t).en = false) :
    tmrOf (bootBlock load0 load1 b) t =
      { en := true
        ie := true
        tmo := false
        load := if t = 0 then load0 else load1
        val := if t = 0 then load0 else load1 } := by
  obtain ⟨hack, hen, hie⟩ := bootWords_name_both_timers t
  rw [bootBlock, tmrOf_writeTmrCtl, tmrOf_writeTmrClr, tmrOf_writeTmrLoads, hack, hen, hie]
  simp [hdis]

@[simp] theorem seqOf_bootBlock (load0 load1 : Word) (b : Block) (n : SeqIdx) :
    seqOf (bootBlock load0 load1 b) n = seqOf b n := by
  simp [bootBlock, writeTmrCtl, writeTmrClr, writeTmrLoad0, writeTmrLoad1]

@[simp] theorem bootBlock_tcCode (load0 load1 : Word) (b : Block) : (bootBlock load0 load1 b).tcCode = b.tcCode := by
  simp [bootBlock, writeTmrCtl, writeTmrClr, writeTmrLoad0, writeTmrLoad1]

/-! ## The statements of RESET and the boot sequence -/

/-- Settles O53: RESET leaves every sequence idle and every timer disabled without a timeout, so no line is asserted and
neither the Converter nor the Clock has a step. -/
theorem resetMakesTheBlockQuiescent : Obligations.ResetMakesTheBlockQuiescent := by
  intro s hu he
  refine ⟨platformReset (afterChoice s), step_of_reset hu he, seqOf_platformReset _, tmrOf_platformReset _,
    platformReset_tcCode _, by simp, by simp, fun u => ?_, fun n => ?_, fun u => ?_⟩
  · exact irqLevel_eq_false_of_tmo (by simp)
  · exact congrArg Host.Outcome.next (convDone_of_idle (by simp))
  · exact congrArg Host.Outcome.next (clockTick_of_disabled (by simp))

/-- Settles O55: the four writes reach the block in order, and each disabled timer then starts from its own reload
value. -/
theorem bootSequenceArmsBothTimers : Obligations.BootSequenceArmsBothTimers := by
  intro load0 load1 s hm hb hdis
  exact ⟨answerWrite (bootBlock load0 load1 s.block) s, runEvents_bootEvents load0 load1 hm hb,
    tmrOf_bootBlock load0 load1 (hdis 0), tmrOf_bootBlock load0 load1 (hdis 1), seqOf_bootBlock load0 load1 s.block,
    bootBlock_tcCode load0 load1 s.block, rfl⟩

end Sys2Proof.Machine
end
